-- ==== Sys2Proof/Word.lean ====
section
/-! DEFINITION. The types of the values on the unit's buses and in its byte buffers (00_scope.md R5, R7). -/

namespace Sys2Proof

/-- One byte of a byte buffer. -/
abbrev Byte := BitVec 8

/-- The command word CMD (30_encoding.md R55). -/
abbrev CmdWord := BitVec 8

/-- A value of the operand bus A or of the result register RES (10_state.md R22, R36). -/
abbrev Bus := BitVec 128

/-- A value of the status register STATUS (10_state.md R23). -/
abbrev StatusWord := BitVec 8

/-- A byte buffer of length `n`: position 0 is the first byte, the most significant one (00_scope.md R7,
20_memory.md R40). A buffer of another length is no term of this type (60_exceptions.md R122). -/
abbrev Buf (n : Nat) := Vector Byte n

end Sys2Proof
end

