-- ==== Sys2Proof/Syntax.lean ====
section
/-! DEFINITION. The command as it stands on the request port, and the six operations with their typed operands. -/

namespace Sys2Proof

/-- A command as presented and latched: the triple (CMD, A, AX) of 30_encoding.md R56. AX is carried as the
natural number on the bus (92_eei_decisions.md D10); that it fits the bus is `Command.fits`. Log 3. -/
structure Command where
  cmd : CmdWord
  a   : Bus
  ax  : Nat
  deriving DecidableEq, Repr

/-- The six operations of spec/opcode_table.json with their operands as 30_encoding.md R57 types them. Buffers are
abstract (92_eei_decisions.md D3): the lane map is in `Machine/Operands.lean`. Log 13. -/
inductive Instr where
  /-- A2I4, AddressToInteger (R80). -/
  | a2i4 (addr : Buf 4)
  /-- I2A4, IntegerToAddress (R81). -/
  | i2a4 (n : BitVec 32)
  /-- A2P6, AddressToIntegerPair (R90). -/
  | a2p6 (addr : Buf 16)
  /-- P2A6, IntegerPairToAddress (R91). -/
  | p2a6 (high low : BitVec 64)
  /-- A2B6, AddressToBigInteger (R100). -/
  | a2b6 (addr : Buf 16)
  /-- B2A6, BigIntegerToAddress (R101): an unsigned operand of `BIGW` bits, in range or not (R64, R105). -/
  | b2a6 (n : Nat)
  deriving DecidableEq, Repr

end Sys2Proof
end

