-- ==== Sys2Proof/Machine/Operands.lean ====
section
/-! DEFINITION. Byte order (00_scope.md R9, 20_memory.md R40), the lane map (20_memory.md R42), operand assembly
(30_encoding.md R60 to R64) and result packing (R66 to R70). -/

namespace Sys2Proof.Machine

/-- The big-endian value of a list of bytes: the sum of R9, first byte most significant. -/
def beBytes : List Byte → Nat
  | [] => 0
  | b :: bs => b.toNat * 256 ^ bs.length + beBytes bs

/-- `BE_N(buf)` of 00_scope.md R9. -/
def beNat {n : Nat} (buf : Buf n) : Nat := beBytes buf.toList

/-- `bytesBE_N(v)` of 00_scope.md R9: byte i is `(v >> (8*(N-1-i))) mod 256`. -/
def bytesBE (n v : Nat) : Buf n := Vector.ofFn fun i => BitVec.ofNat 8 (v >>> (8 * (n - 1 - i.val)))

/-- Bytes `start` to `start + len - 1` of a buffer, as a buffer: the `addr[0..7]` and `addr[8..15]` of R90. -/
def subBuf {n : Nat} (buf : Buf n) (start len : Nat) (h : start + len ≤ n) : Buf len :=
  Vector.ofFn fun i => buf[start + i.val]'(by omega)

/-- The buffer in lanes 0 to n−1 of a bus: byte i is bits `[8i+7:8i]` (R42, R60, R61). -/
def unpackBuf (n : Nat) (a : Bus) : Buf n := Vector.ofFn fun i => a.extractLsb' (8 * i.val) 8

/-- The number whose byte i, counted from the least significant, is the i-th byte of the list. -/
def laneSum : List Byte → Nat
  | [] => 0
  | b :: bs => b.toNat + 256 * laneSum bs

/-- A buffer in lanes 0 to n−1 of a bus, the other lanes zero (R42, R67, R68). -/
def packBuf {n : Nat} (buf : Buf n) : Bus := BitVec.ofNat 128 (laneSum buf.toList)

/-- A uint32 operand, `A[31:0]` (R62). -/
def operandUint32 (a : Bus) : BitVec 32 := a.extractLsb' 0 32

/-- The high half of a pair operand, `A[127:64]` (R63). -/
def operandHigh (a : Bus) : BitVec 64 := a.extractLsb' 64 64

/-- The low half of a pair operand, `A[63:0]` (R63). -/
def operandLow (a : Bus) : BitVec 64 := a.extractLsb' 0 64

/-- A big-integer operand, `A + AX · 2^128` (R64). -/
def operandBig (a : Bus) (ax : Nat) : Nat := a.toNat + ax * 2 ^ 128

/-- A uint32 on a bus, zero above bit 31 (R66). -/
def packUint32 (n : BitVec 32) : Bus := n.setWidth 128

/-- A pair on a bus, high in `[127:64]` and low in `[63:0]` (R69). -/
def packPair (high low : BitVec 64) : Bus := high ++ low

/-- A big integer on a bus, bit k at bit k (R70). -/
def packBig (n : Nat) : Bus := BitVec.ofNat 128 n

end Sys2Proof.Machine
end

