-- ==== Sys2Proof/Config.lean ====
section
/-! DEFINITION. What an implementation fixes (00_scope.md R6) and the free values of what the spec leaves unspecified
(93_implementation_defined.md part 2). None of the constants has a body: whatever is proved holds for every value. -/

namespace Sys2Proof

/-- The width of the extension bus AX, `BIGW` − 128. Every natural number is legal (R6). Log 3. -/
opaque Config.axWidth : Nat

/-- `BIGW`, the width of B2A6's operand: any integer ≥ 128 (R6). -/
def Config.bigw : Nat := 128 + Config.axWidth

/-- `LAT`, the number of cycles from accepting a command to its completion: any integer ≥ 0 (R6, R150). Log 2. -/
opaque Config.lat : Nat

/-- FREE VALUE: what RES holds after a reset or an acceptance, by draw (R140, R144: "RES <- unspecified"). Log 4. -/
opaque Config.freeRes : Nat → Bus

/-- FREE VALUE: what a read of the RES port gives while VALID = 0, by draw and by cycles left (R34, R146). Log 4. -/
opaque Config.freeResRead : Nat → Nat → Bus

/-- FREE VALUE: PEND.CMD while BUSY = 0, by draw (R29, R140). Log 6. -/
opaque Config.freePendCmd : Nat → CmdWord

/-- FREE VALUE: PEND.A while BUSY = 0, by draw (R29, R140). Log 6. -/
opaque Config.freePendA : Nat → Bus

/-- FREE VALUE: PEND.AX while BUSY = 0, by draw, before it is cut to AX's width (R29, R140). Log 6. -/
opaque Config.freePendAx : Nat → Nat

end Sys2Proof
end

