-- ==== Sys2Proof/WellFormed.lean ====
section
/-! DEFINITION. Which instructions and commands the request port can present. -/

namespace Sys2Proof

/-- The instruction's operand can be presented to a unit whose big operand is `bigw` bits wide: every operand has its
exact type (60_exceptions.md R122), and B2A6's is below 2^`BIGW` (30_encoding.md R64). -/
def Instr.wellFormedAt (bigw : Nat) : Instr → Bool
  | .a2i4 _ => true
  | .i2a4 _ => true
  | .a2p6 _ => true
  | .p2a6 _ _ => true
  | .a2b6 _ => true
  | .b2a6 n => decide (n < 2 ^ bigw)

/-- `Instr.wellFormedAt` for this unit's `BIGW`. -/
def Instr.wellFormed (i : Instr) : Bool := i.wellFormedAt Config.bigw

/-- AX's value fits an extension bus of `axWidth` bits (10_state.md R36). -/
def Command.fitsAt (axWidth : Nat) (c : Command) : Bool := decide (c.ax < 2 ^ axWidth)

/-- `Command.fitsAt` for this unit's AX. -/
def Command.fits (c : Command) : Bool := c.fitsAt Config.axWidth

end Sys2Proof
end

