-- ==== Sys2Proof/Decode.lean ====
section
/-! DEFINITION. The decoder, total on every command (30_encoding.md R76), and after it the encoder: what the
assembler of R72 presents on the ports. -/

namespace Sys2Proof

/-- Why a command word selects no operation. -/
inductive DecodeError where
  /-- CMD[7:3] is not zero (R59). -/
  | reservedBits
  /-- CMD[7:3] is zero and OP is 6 or 7 (R58). -/
  | reservedOp
  deriving DecidableEq, Repr

/-- The field OP, `CMD[2:0]` (R55). -/
def cmdOp (cmd : CmdWord) : BitVec 3 := cmd.extractLsb' 0 3

/-- The field RSV, `CMD[7:3]` (R55). -/
def cmdRsv (cmd : CmdWord) : BitVec 5 := cmd.extractLsb' 3 5

/-- The decoder of R76, with the operand of the selected operation assembled from A and AX (R57, R60 to R64). -/
def decode (c : Command) : Except DecodeError Instr :=
  if cmdRsv c.cmd ≠ 0 then .error .reservedBits
  else match (cmdOp c.cmd).toNat with
    | 0 => .ok (.a2i4 (Machine.unpackBuf 4 c.a))
    | 1 => .ok (.i2a4 (Machine.operandUint32 c.a))
    | 2 => .ok (.a2p6 (Machine.unpackBuf 16 c.a))
    | 3 => .ok (.p2a6 (Machine.operandHigh c.a) (Machine.operandLow c.a))
    | 4 => .ok (.a2b6 (Machine.unpackBuf 16 c.a))
    | 5 => .ok (.b2a6 (Machine.operandBig c.a c.ax))
    | _ => .error .reservedOp

/-- The command of an instruction: CMD from R57, the operand packed by R60 to R64, and every bit the command ignores
zero (R65, R72). -/
def encode : Instr → Command
  | .a2i4 addr => ⟨0x00#8, Machine.packBuf addr, 0⟩
  | .i2a4 n => ⟨0x01#8, Machine.packUint32 n, 0⟩
  | .a2p6 addr => ⟨0x02#8, Machine.packBuf addr, 0⟩
  | .p2a6 high low => ⟨0x03#8, Machine.packPair high low, 0⟩
  | .a2b6 addr => ⟨0x04#8, Machine.packBuf addr, 0⟩
  | .b2a6 n => ⟨0x05#8, Machine.packBig n, n / 2 ^ 128⟩

/-- A command laid out as one word: CMD in bits 7:0 as spec/opcode_table.json numbers it, then A in bits 135:8, then
AX from bit 136 up. The places of A and AX are the model's: DESIGN CHOICE, log 12. -/
def Command.ofWord (w : Nat) : Command :=
  ⟨BitVec.ofNat 8 w, BitVec.ofNat 128 (w / 2 ^ 8), w / 2 ^ 136⟩

/-- The word of a command, in the layout of `Command.ofWord`. -/
def Command.toWord (c : Command) : Nat := c.cmd.toNat + c.a.toNat * 2 ^ 8 + c.ax * 2 ^ 136

/-- The instruction the decoder reads from a word of `nbits` bits, every bit above them zero. -/
def decodeTableWord (nbits w : Nat) : Option Instr := (decode (.ofWord (w % 2 ^ nbits))).toOption

end Sys2Proof
end

