-- ==== Sys2Proof/Machine/State.lean ====
section
/-! DEFINITION. The unit's state (10_state.md), the values on its input ports, and the reasons a step can stop. -/

namespace Sys2Proof.Machine

/-- The causes for which the unit rejects a command (60_exceptions.md R121). -/
inductive ErrorCode where
  /-- B2A6's operand is ≥ 2^128 (43_ipv6_bigint.md R102). -/
  | range
  /-- The command word selects no operation (30_encoding.md R58, R59). -/
  | illegalOp
  deriving DecidableEq, Repr

/-- The values on the input ports in one CLK cycle (10_state.md R36). -/
structure PortSample where
  /-- RST, active when 1. -/
  rst      : Bool
  /-- REQ_VALID. -/
  reqValid : Bool
  /-- CMD, A and AX. -/
  command  : Command
  deriving DecidableEq, Repr

/-- The input ports of a cycle in which nobody drives anything: RST = 0 and REQ_VALID = 0. Log 1. -/
def PortSample.idle : PortSample := ⟨false, false, ⟨0, 0, 0⟩⟩

/-- The unit's state. There is no register file, program counter, memory or mode (R20, R31, R43, R128). -/
structure State where
  /-- RES (R22). -/
  res         : Bus
  /-- STATUS (R23); its fields are read in `Machine/Flags.lean`. -/
  status      : StatusWord
  /-- BUSY (R28). -/
  busy        : Bool
  /-- PEND: the command in flight (R29). -/
  pend        : Command
  /-- While BUSY = 1, the cycles that still pass before the completing cycle (R145). Log 8. -/
  countdown   : Nat
  /-- The values on the input ports in this cycle (the head) and the coming ones (R36). Log 1. -/
  inputs      : List PortSample
  /-- The model's record of every rejection, oldest first, which no step clears (R134). Log 7. -/
  faultRecord : List ErrorCode
  /-- The model's own counter of free values drawn. Log 9. -/
  draws       : Nat
  deriving DecidableEq, Repr

/-- The unit right after reset with RST back at 0 and the lines idle (R35, R140, R142). RES and PEND are unspecified
there: the zeros are DESIGN CHOICE, log 5. -/
def State.reset : State where
  res := 0
  status := 0x00#8
  busy := false
  pend := ⟨0, 0, 0⟩
  countdown := 0
  inputs := []
  faultRecord := []
  draws := 0

/-- Faults that stop the machine: none. An error of the unit is a response (60_exceptions.md R124), a next state, and
the unit has no trap and is never stuck (R125, R127). Safe: nothing raises one. Log 10. -/
inductive Fault
  deriving DecidableEq, Repr

/-- Reasons for which an instruction has no meaning. -/
inductive Refusal where
  /-- An instruction rejected by name in `exec`'s arm; safe. No arm raises it: every instruction has its meaning. -/
  | notModelled (mnemonic : String)
  deriving DecidableEq, Repr

end Sys2Proof.Machine
end

