-- ==== Sys2Proof/Machine/Flags.lean ====
section
/-! DEFINITION. The STATUS register: the values written to it and the fields read from it (10_state.md R23 to R27). -/

namespace Sys2Proof.Machine

/-- STATUS after reset and while a command is in flight (R37, R140, R144). -/
def statusClear : StatusWord := 0x00#8

/-- STATUS of a success: VALID = 1, ERR = 0, ECODE = 0 (R37). -/
def statusOk : StatusWord := 0x01#8

/-- ECODE of an error (R26). -/
def ErrorCode.ecode : ErrorCode → StatusWord
  | .range => 1
  | .illegalOp => 2

/-- STATUS of an error response: `0x03 | (E << 2)` (60_exceptions.md R124). -/
def statusError (e : ErrorCode) : StatusWord := 0x03#8 ||| (e.ecode <<< 2)

/-- What the STATUS port shows: bits 7:4 are hardwired to 0 (R27). -/
def State.statusPort (s : State) : StatusWord := s.status &&& 0x0F#8

/-- The field VALID, bit 0 (R24). -/
def State.valid (s : State) : Bool := s.statusPort.getLsbD 0

/-- The field ERR, bit 1 (R25). -/
def State.err (s : State) : Bool := s.statusPort.getLsbD 1

/-- The field ECODE, bits 3:2 (R26). -/
def State.ecode (s : State) : BitVec 2 := s.statusPort.extractLsb' 2 2

end Sys2Proof.Machine
end

