-- ==== Sys2Proof/Machine/Ops.lean ====
section
/-! DEFINITION. The shared operations on the state: reading the ports, accepting a command, answering it, rejecting
it, and reset. -/

namespace Sys2Proof.Machine

/-- The input ports' values in the current cycle. Past the end of the list the lines are idle. Log 1. -/
def State.ports (s : State) : PortSample := s.inputs.headD .idle

/-- The state with the current cycle's port values consumed. -/
def State.popPorts (s : State) : State := { s with inputs := s.inputs.tail }

/-- REQ_READY = (RST = 0) and (BUSY = 0) (10_state.md R28, 70_reset_and_hazards.md R140). -/
def State.reqReady (s : State) : Bool := !s.ports.rst && !s.busy

/-- What the RES port shows: RES while VALID = 1, and any value while VALID = 0 (10_state.md R24, R34;
70_reset_and_hazards.md R146). Reading changes nothing (20_memory.md R46). Log 4. -/
def State.resPort (s : State) : Bus :=
  if s.valid then s.res else Config.freeResRead s.draws s.countdown

/-- PEND while BUSY = 0: a free value of PEND's widths (10_state.md R29). Log 6. -/
def freePend (draw : Nat) : Command :=
  ⟨Config.freePendCmd draw, Config.freePendA draw, Config.freePendAx draw % 2 ^ Config.axWidth⟩

/-- Acceptance of a command, with the cycles that will pass before its completing cycle (R144). -/
def State.accept (c : Command) (cyclesBetween : Nat) (s : State) : State :=
  { s with
    pend := c
    status := statusClear
    res := Config.freeRes s.draws
    busy := true
    countdown := cyclesBetween
    draws := s.draws + 1 }

/-- The writes of a completion: RES and STATUS whole, BUSY cleared (R145, 20_memory.md R45). PEND is unspecified from
then on (R29). -/
def State.respond (res : Bus) (status : StatusWord) (s : State) : State :=
  { s with
    res := res
    status := status
    busy := false
    pend := freePend s.draws
    draws := s.draws + 1 }

/-- A successful completion (R80 to R101: `STATUS <- 0x01`). -/
def State.succeed (res : Bus) (s : State) : State := s.respond res statusOk

/-- The error response: the unit's one exception, taken whole in one step (60_exceptions.md R124), and the rejection
recorded (R134). There is nothing to return from (R127). -/
def State.reject (e : ErrorCode) (s : State) : State :=
  { s.respond 0 (statusError e) with faultRecord := s.faultRecord ++ [e] }

/-- One cycle with RST = 1 (R140). A command in flight is discarded (R141). The fault record stays (R134). -/
def State.resetCycle (s : State) : State :=
  { s with
    busy := false
    status := statusClear
    res := Config.freeRes s.draws
    pend := freePend s.draws
    countdown := 0
    draws := s.draws + 1 }

/-- A cycle that passes while a command is in flight and not yet due (R144, R145). -/
def State.wait (cyclesLeft : Nat) (s : State) : State := { s with countdown := cyclesLeft }

end Sys2Proof.Machine
end

