-- ==== Sys2Proof/Machine/Ipv4.lean ====
section
/-! DEFINITION. The IPv4 family: A2I4 and I2A4 (41_ipv4_integer.md). -/

namespace Sys2Proof.Machine

/-- A2I4 (R80): RES is the buffer read as a big-endian uint32. -/
def execA2i4 (addr : Buf 4) (s : State) : Host.Outcome State Fault Refusal :=
  .next (s.succeed (packUint32 (BitVec.ofNat 32 (beNat addr))))

/-- I2A4 (R81): RES holds the four big-endian bytes of `n` in lanes 0 to 3. -/
def execI2a4 (n : BitVec 32) (s : State) : Host.Outcome State Fault Refusal :=
  .next (s.succeed (packBuf (bytesBE 4 n.toNat)))

end Sys2Proof.Machine
end

