-- ==== Sys2Proof/Machine/Ipv6BigInt.lean ====
section
/-! DEFINITION. The IPv6 big-integer family: A2B6 and B2A6 (43_ipv6_bigint.md). -/

namespace Sys2Proof.Machine

/-- A2B6 (R100): RES is the whole buffer read as one big-endian number. -/
def execA2b6 (addr : Buf 16) (s : State) : Host.Outcome State Fault Refusal :=
  .next (s.succeed (packBig (beNat addr)))

/-- B2A6 (R101): RANGE when `n` ≥ 2^128 (R102), else the sixteen big-endian bytes of `n` (R103). -/
def execB2a6 (n : Nat) (s : State) : Host.Outcome State Fault Refusal :=
  if 2 ^ 128 ≤ n then .next (s.reject .range)
  else .next (s.succeed (packBuf (bytesBE 16 n)))

end Sys2Proof.Machine
end

