-- ==== Sys2Proof/Machine/Ipv6Pair.lean ====
section
/-! DEFINITION. The IPv6 pair family: A2P6 and P2A6 (42_ipv6_pair.md). -/

namespace Sys2Proof.Machine

/-- A2P6 (R90): high from bytes 0 to 7, low from bytes 8 to 15. -/
def execA2p6 (addr : Buf 16) (s : State) : Host.Outcome State Fault Refusal :=
  let high := BitVec.ofNat 64 (beNat (subBuf addr 0 8 (by decide)))
  let low := BitVec.ofNat 64 (beNat (subBuf addr 8 8 (by decide)))
  .next (s.succeed (packPair high low))

/-- P2A6 (R91): bytes 0 to 7 from high, bytes 8 to 15 from low. -/
def execP2a6 (high low : BitVec 64) (s : State) : Host.Outcome State Fault Refusal :=
  .next (s.succeed (packBuf (bytesBE 8 high.toNat ++ bytesBE 8 low.toNat)))

end Sys2Proof.Machine
end

