-- ==== Sys2Proof/Machine/Dispatch.lean ====
section
/-! DEFINITION. The meaning of every instruction: one arm per constructor. -/

namespace Sys2Proof.Machine

def exec (i : Instr) (s : State) : Host.Outcome State Fault Refusal :=
  match i with
  | .a2i4 addr => Sys2Proof.Machine.execA2i4 addr s
  | .i2a4 n => Sys2Proof.Machine.execI2a4 n s
  | .a2p6 addr => Sys2Proof.Machine.execA2p6 addr s
  | .p2a6 high low => Sys2Proof.Machine.execP2a6 high low s
  | .a2b6 addr => Sys2Proof.Machine.execA2b6 addr s
  | .b2a6 n => Sys2Proof.Machine.execB2a6 n s

end Sys2Proof.Machine
end

