-- ==== Sys2Proof/Machine/Handshake.lean ====
section
/-! DEFINITION. What one CLK cycle does: reset, acceptance, waiting and completion (70_reset_and_hazards.md). -/

namespace Sys2Proof.Machine

/-- Completion (R145): PEND is decoded, and the operation is executed or the command rejected with ILLEGAL_OP. -/
def complete (s : State) : Host.Outcome State Fault Refusal :=
  match decode s.pend with
  | .ok i => exec i s
  | .error _ => .next (s.reject .illegalOp)

/-- One cycle of a unit of latency `lat`, with the port values `io` (R140, R144, R145). Reset takes precedence. A
command in flight completes when it is due. An idle unit accepts a presented command, and completes it in the same
cycle when `lat` is 0 (log 17). Otherwise nothing changes. -/
def cycle (lat : Nat) (io : PortSample) (s : State) : Host.Outcome State Fault Refusal :=
  if io.rst then .next s.resetCycle
  else if s.busy then
    match s.countdown with
    | 0 => complete s
    | k + 1 => .next (s.wait k)
  else if io.reqValid then
    match lat with
    | 0 => complete (s.accept io.command 0)
    | k + 1 => .next (s.accept io.command k)
  else .next s

/-- The step of a unit of latency `lat`: one cycle with the port values that stand at the head of `inputs`. -/
def stepAt (lat : Nat) (s : State) : Host.Outcome State Fault Refusal := cycle lat s.ports s.popPorts

/-- The state in which PEND holds `c` and the next cycle is its completing one: BUSY = 1, no cycle left to wait, and
RST = 0 on the ports. Log 11. -/
def State.withPending (c : Command) (s : State) : State :=
  { s with
    pend := c
    busy := true
    countdown := 0
    inputs := s.inputs.modifyHead fun p => { p with rst := false } }

end Sys2Proof.Machine
end

