-- ==== Sys2Proof/Machine/Step.lean ====
section
/-! DEFINITION. The step function, at this unit's latency. -/

namespace Sys2Proof.Machine

/-- One CLK cycle of the unit (R144, R152). -/
def step (s : State) : Host.Outcome State Fault Refusal := stepAt Config.lat s

/-- `s` with the table's word where the step takes its next instruction from: in PEND, due for completion. Log 11. -/
def State.withFetchWord (s : State) (nbits w : Nat) : State := s.withPending (.ofWord (w % 2 ^ nbits))

end Sys2Proof.Machine
end

