-- ==== Sys2Proof/Safety.lean ====
section
/-! DEFINITION. What claims are stated in terms of: the response of a command, a safe run, the invariant of reachable
states, and the machine at any latency. -/

namespace Sys2Proof

/-- What a command leaves in RES, and the error it was rejected with, if any (10_state.md R22, 60_exceptions.md R124). -/
structure Response where
  res   : Bus
  error : Option Machine.ErrorCode
  deriving DecidableEq, Repr

/-- The STATUS of a response: one of the three completed values of 10_state.md R37. -/
def Response.status (r : Response) : StatusWord :=
  match r.error with
  | none => 0x01#8
  | some .range => 0x07#8
  | some .illegalOp => 0x0B#8

/-- `rev_n` of 30_encoding.md R77 on lanes 0 to n−1 of a bus, zero above them. -/
def busReverse (n : Nat) (a : Bus) : Bus := Machine.packBuf (Machine.unpackBuf n a).reverse

/-- The response of a command as a function of CMD, A and AX alone (10_state.md R30), written from the bus-level table of
30_encoding.md R77 and the causes of 60_exceptions.md R121, without the decoder or the meanings. -/
def Command.response (c : Command) : Response :=
  if c.cmd.toNat ≤ 1 then ⟨busReverse 4 c.a, none⟩
  else if c.cmd.toNat ≤ 4 then ⟨busReverse 16 c.a, none⟩
  else if c.cmd.toNat = 5 then
    if c.ax = 0 then ⟨busReverse 16 c.a, none⟩ else ⟨0, some .range⟩
  else ⟨0, some .illegalOp⟩

namespace Machine

/-- `t` is `s` after a completion with response `r`: RES, STATUS and BUSY are written (R145), a rejection is recorded
(R134), and nothing else changes. PEND is not mentioned: it is unspecified while BUSY = 0 (R29). `faultRecord`, `inputs`
and `countdown` are fields of the model's own (log 7, 1, 8). -/
structure Answers (s : State) (r : Response) (t : State) : Prop where
  res         : t.res = r.res
  status      : t.status = r.status
  resPort     : t.resPort = r.res
  statusPort  : t.statusPort = r.status
  busy        : t.busy = false
  faultRecord : t.faultRecord = s.faultRecord ++ r.error.toList
  inputs      : t.inputs = s.inputs
  countdown   : t.countdown = s.countdown

/-- The command in flight completes in this cycle: no reset, BUSY = 1 and no cycle left to wait (R145). -/
structure State.Due (s : State) : Prop where
  running : s.ports.rst = false
  busy    : s.busy = true
  noWait  : s.countdown = 0

/-- A safe run so far: no error response recorded (60_exceptions.md R134). -/
def State.noErrorRecorded (s : State) : Prop := s.faultRecord = []

/-- The response a host may take: none before STATUS.VALID = 1 (70_reset_and_hazards.md R146). -/
def State.hostResponse (s : State) : Option (Bus × StatusWord) :=
  if s.valid then some (s.resPort, s.statusPort) else none

/-- The invariant of a unit of latency `lat`. -/
structure State.Inv (lat : Nat) (s : State) : Prop where
  /-- Only four STATUS values occur (10_state.md R37). -/
  statusLegal : s.status = 0x00#8 ∨ s.status = 0x01#8 ∨ s.status = 0x07#8 ∨ s.status = 0x0B#8
  /-- STATUS is clear while a command is in flight (R24, R37). -/
  busyClear   : s.busy = true → s.status = 0x00#8
  /-- A command in flight is due within `lat` cycles (R145). With `lat` = 0 BUSY is never seen as 1 (R28). -/
  dueInTime   : s.busy = true → s.countdown < lat
  /-- A RANGE response shows RES = 0 and is the last rejection recorded (R124, R134). -/
  rangeShown  : s.status = 0x07#8 → s.res = 0 ∧ s.faultRecord.getLast? = some .range
  /-- An ILLEGAL_OP response shows RES = 0 and is the last rejection recorded (R124, R134). -/
  illegalShown : s.status = 0x0B#8 → s.res = 0 ∧ s.faultRecord.getLast? = some .illegalOp
  /-- PEND.AX is as wide as AX (R29). -/
  pendFits    : s.pend.fits = true
  /-- The port AX carries values of its width (R36). -/
  portsFit    : ∀ p ∈ s.inputs, p.command.fits = true

/-- The machine at latency `lat`. `Sys2Proof.core` is this machine at `Config.lat`. -/
def machineAt (lat : Nat) : Host.Core where
  State := State
  Fault := Fault
  Refusal := Refusal
  step := stepAt lat
  reset := State.reset

/-- The port values of a host that presents `c` in one cycle and anything at all in the cycles of `later`. -/
def present (c : Command) (later : List PortSample) : List PortSample := ⟨false, true, c⟩ :: later

/-- No reset in these cycles. -/
def noReset (ps : List PortSample) : Prop := ∀ p ∈ ps, p.rst = false

end Machine

end Sys2Proof
end

