-- ==== Sys2Proof/Certificates/Slice0/Obligations.lean ====
section
/-! DEFINITION. The statements for the provers, each with the rules of spec/ it formalises. `Answers s r t` is the frame
of every completion: RES, STATUS, BUSY and the fault record as the response says, `inputs` and `countdown` unchanged.
`inputs` (log 1), `countdown` (log 8) and the order of the fault record's entries (log 7) are the model's own. No
statement says what a free value is, or what RES or PEND hold where the spec leaves them unspecified. -/

open Sys2Proof Sys2Proof.Machine

/-! ## Decoding and encoding -/

/-- Commands of 95_test_vectors.md, written out from 30_encoding.md R57 and R60 to R64, decode to the operation and the
operand they stand for. A sanity statement. -/
def Obligations.SpecCommandsDecode : Prop :=
  decode ⟨0x00#8, 0x0000000000000000000000000101A8C0, 0⟩ = .ok (.a2i4 #v[0xC0, 0xA8, 0x01, 0x01]) ∧
  decode ⟨0x01#8, 0x000FFFF0000000000000000001020304, 0⟩ = .ok (.i2a4 0x01020304) ∧
  decode ⟨0x02#8, 0x88880000000000000000604860480120, 0⟩ =
    .ok (.a2p6 #v[0x20, 0x01, 0x48, 0x60, 0x48, 0x60, 0, 0, 0, 0, 0, 0, 0, 0, 0x88, 0x88]) ∧
  decode ⟨0x03#8, 0x20014860486000000000000000008888, 0⟩ = .ok (.p2a6 0x2001486048600000 0x8888) ∧
  decode ⟨0x04#8, 0x0101A8C0FFFF00000000000000000120, 0⟩ =
    .ok (.a2b6 #v[0x20, 0x01, 0, 0, 0, 0, 0, 0, 0, 0, 0xFF, 0xFF, 0xC0, 0xA8, 0x01, 0x01]) ∧
  decode ⟨0x05#8, 5, 1⟩ = .ok (.b2a6 (2 ^ 128 + 5)) ∧
  decode ⟨0x06#8, 0, 0⟩ = .error .reservedOp ∧
  decode ⟨0x07#8, 0, 0⟩ = .error .reservedOp ∧
  decode ⟨0x08#8, 0, 0⟩ = .error .reservedBits

/-- R58, R59, R74: exactly the CMD values 0x00 to 0x05 select an operation, whatever A and AX hold. Every other one
completes with ILLEGAL_OP. -/
def Obligations.ExactlySixCommandWordsAreLegal : Prop :=
  (∀ (cmd : CmdWord) (a : Bus) (ax : Nat), (∃ i, decode ⟨cmd, a, ax⟩ = .ok i) ↔ cmd.toNat ≤ 5) ∧
  ∀ (lat : Nat) (s : State), s.Due → 5 < s.pend.cmd.toNat →
    ∃ t, stepAt lat s = .next t ∧ Answers s.popPorts ⟨0, some .illegalOp⟩ t

/-- Decoding the encoded command of a well-formed instruction gives it back, with every operand at every value, and the
command can be presented on the ports. The same through the command laid out as one word (the layout of A and AX in
it is DESIGN CHOICE, log 12). -/
def Obligations.EncodedInstructionDecodesBack : Prop :=
  ∀ i : Instr, i.wellFormed = true →
    decode (encode i) = .ok i ∧ (encode i).fits = true ∧ decode (.ofWord (encode i).toWord) = .ok i

/-- A decoded command is the encoding of what it decodes to, but for the bits its operation does not read, which the
assembler writes as 0 (R65, R72): CMD is the same, and so is every bit read. -/
def Obligations.DecodedCommandEncodesBack : Prop :=
  ∀ (c : Command) (i : Instr), decode c = .ok i →
    (encode i).cmd = c.cmd ∧
    (c.cmd.toNat ≤ 1 → (encode i).a = (c.a.extractLsb' 0 32).setWidth 128 ∧ (encode i).ax = 0) ∧
    (2 ≤ c.cmd.toNat → (encode i).a = c.a) ∧
    (2 ≤ c.cmd.toNat → c.cmd.toNat ≤ 4 → (encode i).ax = 0) ∧
    (c.cmd.toNat = 5 → (encode i).ax = c.ax)

/-- R65: AX for every command but B2A6, `A[127:32]` for A2I4 and I2A4, and all of A and AX for an illegal command have
no effect on the response. The assembler writes them as 0. -/
def Obligations.UnreadOperandBitsHaveNoEffect : Prop :=
  (∀ (c c' : Command) (lat : Nat) (s : State),
    c'.cmd = c.cmd →
    (c.cmd.toNat ≤ 1 → c'.a.extractLsb' 0 32 = c.a.extractLsb' 0 32) →
    (2 ≤ c.cmd.toNat → c.cmd.toNat ≤ 5 → c'.a = c.a) →
    (c.cmd.toNat = 5 → c'.ax = c.ax) →
    ∃ r t t', stepAt lat (s.withPending c) = .next t ∧ stepAt lat (s.withPending c') = .next t' ∧
      Answers (s.withPending c).popPorts r t ∧ Answers (s.withPending c').popPorts r t') ∧
  ∀ i : Instr,
    ((encode i).cmd.toNat ≠ 5 → (encode i).ax = 0) ∧
    ((encode i).cmd.toNat ≤ 1 → (encode i).a.extractLsb' 32 96 = 0)

/-! ## The helpers of every operation -/

/-- R9: `BE_N` is the big-endian sum, byte i of `bytesBE_N(v)` is `(v >> (8*(N-1-i))) mod 256`, and the two invert each
other, for every length N. -/
def Obligations.BigEndianHelpersInvert : Prop :=
  (∀ (N : Nat) (buf : Buf N), beNat buf = ∑ i : Fin N, buf[i.val].toNat * 256 ^ (N - 1 - i.val)) ∧
  (∀ (N v i : Nat) (h : i < N), (bytesBE N v)[i].toNat = (v >>> (8 * (N - 1 - i))) % 256) ∧
  (∀ N v : Nat, v < 256 ^ N → beNat (bytesBE N v) = v) ∧
  ∀ (N : Nat) (buf : Buf N), bytesBE N (beNat buf) = buf

/-! ## The six operations: operand, result, completion and frame -/

/-- R80: A2I4 reads lanes 0 to 3 of A, whatever the rest of A and AX hold, and completes with the big-endian uint32. -/
def Obligations.A2i4CompletesWithBigEndianValue : Prop :=
  (∀ (a : Bus) (ax : Nat), ∃ addr, decode ⟨0x00#8, a, ax⟩ = .ok (.a2i4 addr) ∧
    ∀ (i : Nat) (h : i < 4), addr[i] = a.extractLsb' (8 * i) 8) ∧
  ∀ (addr : Buf 4) (s : State), ∃ (n : BitVec 32) (t : State),
    exec (.a2i4 addr) s = .next t ∧ Answers s ⟨n.setWidth 128, none⟩ t ∧
    n.toNat = addr[0].toNat * 2 ^ 24 + addr[1].toNat * 2 ^ 16 + addr[2].toNat * 2 ^ 8 + addr[3].toNat ∧
    ∀ (i : Nat) (h : i < 4), n.extractLsb' (24 - 8 * i) 8 = addr[i]

/-- R81: I2A4 reads `A[31:0]` and completes with its four big-endian bytes in lanes 0 to 3, zero above. -/
def Obligations.I2a4CompletesWithBigEndianBytes : Prop :=
  (∀ (a : Bus) (ax : Nat), decode ⟨0x01#8, a, ax⟩ = .ok (.i2a4 (a.extractLsb' 0 32))) ∧
  ∀ (n : BitVec 32) (s : State), ∃ (r : Bus) (t : State),
    exec (.i2a4 n) s = .next t ∧ Answers s ⟨r, none⟩ t ∧
    (∀ i : Nat, i < 4 → r.extractLsb' (8 * i) 8 = n.extractLsb' (24 - 8 * i) 8) ∧
    r.extractLsb' 32 96 = 0

/-- R90: A2P6 reads all sixteen lanes and completes with high from bytes 0 to 7 and low from bytes 8 to 15. -/
def Obligations.A2p6CompletesWithBigEndianHalves : Prop :=
  (∀ (a : Bus) (ax : Nat), ∃ addr, decode ⟨0x02#8, a, ax⟩ = .ok (.a2p6 addr) ∧
    ∀ (i : Nat) (h : i < 16), addr[i] = a.extractLsb' (8 * i) 8) ∧
  ∀ (addr : Buf 16) (s : State), ∃ (r : Bus) (t : State),
    exec (.a2p6 addr) s = .next t ∧ Answers s ⟨r, none⟩ t ∧
    (r.extractLsb' 64 64).toNat = ∑ i : Fin 8, addr[i.val].toNat * 256 ^ (7 - i.val) ∧
    (r.extractLsb' 0 64).toNat = ∑ i : Fin 8, addr[8 + i.val].toNat * 256 ^ (7 - i.val)

/-- R91: P2A6 reads the two halves of A and completes with the eight big-endian bytes of each. -/
def Obligations.P2a6CompletesWithBigEndianBytes : Prop :=
  (∀ (a : Bus) (ax : Nat), decode ⟨0x03#8, a, ax⟩ = .ok (.p2a6 (a.extractLsb' 64 64) (a.extractLsb' 0 64))) ∧
  ∀ (high low : BitVec 64) (s : State), ∃ (r : Bus) (t : State),
    exec (.p2a6 high low) s = .next t ∧ Answers s ⟨r, none⟩ t ∧
    (∀ i : Nat, i < 8 → r.extractLsb' (8 * i) 8 = high.extractLsb' (56 - 8 * i) 8) ∧
    ∀ i : Nat, i < 8 → r.extractLsb' (8 * (8 + i)) 8 = low.extractLsb' (56 - 8 * i) 8

/-- R100: A2B6 reads all sixteen lanes and completes with the big-endian value of the whole buffer. -/
def Obligations.A2b6CompletesWithBigEndianValue : Prop :=
  (∀ (a : Bus) (ax : Nat), ∃ addr, decode ⟨0x04#8, a, ax⟩ = .ok (.a2b6 addr) ∧
    ∀ (i : Nat) (h : i < 16), addr[i] = a.extractLsb' (8 * i) 8) ∧
  ∀ (addr : Buf 16) (s : State), ∃ (r : Bus) (t : State),
    exec (.a2b6 addr) s = .next t ∧ Answers s ⟨r, none⟩ t ∧
    r.toNat = ∑ i : Fin 16, addr[i.val].toNat * 256 ^ (15 - i.val)

/-- R101: B2A6 takes the operand `A + AX · 2^128`. Below 2^128 it completes with the sixteen big-endian bytes, leading
zeros included. From 2^128 up, which is AX ≠ 0, it is rejected with RANGE. -/
def Obligations.B2a6CompletesWithSixteenBytesOrRange : Prop :=
  (∀ (a : Bus) (ax : Nat), decode ⟨0x05#8, a, ax⟩ = .ok (.b2a6 (a.toNat + ax * 2 ^ 128))) ∧
  (∀ (n : Nat) (s : State), n < 2 ^ 128 → ∃ (r : Bus) (t : State),
    exec (.b2a6 n) s = .next t ∧ Answers s ⟨r, none⟩ t ∧
    ∀ i : Nat, i < 16 → (r.extractLsb' (8 * i) 8).toNat = n / 256 ^ (15 - i) % 256) ∧
  (∀ (n : Nat) (s : State), 2 ^ 128 ≤ n → ∃ t, exec (.b2a6 n) s = .next t ∧ Answers s ⟨0, some .range⟩ t) ∧
  ∀ (a : Bus) (ax : Nat), 2 ^ 128 ≤ a.toNat + ax * 2 ^ 128 ↔ ax ≠ 0

/-- R103: for every n < 2^128 the buffer B2A6 writes is the minimal big-endian encoding of n behind as many zero bytes as
it lacks to 16 (also as a zeroed buffer with the encoding copied into its tail). For n = 0 the encoding of length 0 and
the encoding of length 1 give the same buffer. -/
def Obligations.B2a6PadsMinimalEncoding : Prop :=
  ∀ (n : Nat) (s : State), n < 2 ^ 128 → ∃ t, exec (.b2a6 n) s = .next t ∧
    let minimal := (Nat.digits 256 n).reverse.map (BitVec.ofNat 8)
    minimal.length ≤ 16 ∧
    (unpackBuf 16 t.res).toList = List.replicate (16 - minimal.length) 0 ++ minimal ∧
    (unpackBuf 16 t.res).toList = (List.replicate 16 0).take (16 - minimal.length) ++ minimal ∧
    (n = 0 → (unpackBuf 16 t.res).toList = List.replicate 15 0 ++ [0])

/-! ## Errors -/

/-- R102: B2A6 is rejected with RANGE exactly when its operand is ≥ 2^128, which is AX ≠ 0. Then no byte of it reaches
RES. With `BIGW` = 128 no operand that fits the ports is rejected. -/
def Obligations.RangeExactlyWhenExtensionNonzero : Prop :=
  (∀ (lat : Nat) (s : State), s.Due → s.pend.cmd = 0x05#8 → ∃ t, stepAt lat s = .next t ∧
    (t.status = 0x07#8 ↔ s.pend.ax ≠ 0) ∧
    (2 ^ 128 ≤ operandBig s.pend.a s.pend.ax ↔ s.pend.ax ≠ 0) ∧
    (s.pend.ax ≠ 0 → Answers s.popPorts ⟨0, some .range⟩ t)) ∧
  ∀ (lat : Nat) (s : State), s.Due → s.pend.cmd = 0x05#8 → s.pend.fitsAt 0 = true →
    ∃ t, stepAt lat s = .next t ∧ t.status = 0x01#8

/-- R121, R124: a command is rejected for exactly two causes, each with the error response of R124: RES = 0, STATUS =
`0x03 | (E << 2)`, BUSY = 0. Every other command succeeds. -/
def Obligations.CommandsRejectedForExactlyTwoCauses : Prop :=
  (∀ (lat : Nat) (s : State), s.Due → ∃ t, stepAt lat s = .next t ∧
    (5 < s.pend.cmd.toNat → Answers s.popPorts ⟨0, some .illegalOp⟩ t) ∧
    (s.pend.cmd.toNat = 5 ∧ s.pend.ax ≠ 0 → Answers s.popPorts ⟨0, some .range⟩ t) ∧
    (s.pend.cmd.toNat < 5 ∨ s.pend.cmd.toNat = 5 ∧ s.pend.ax = 0 → ∃ r, Answers s.popPorts ⟨r, none⟩ t)) ∧
  (Response.mk 0 (some .range)).status = 0x03#8 ||| (1 <<< 2) ∧
  (Response.mk 0 (some .illegalOp)).status = 0x03#8 ||| (2 <<< 2)

/-- R134: no step clears the fault record, and from every state that meets the invariant a step that leaves a new error
response has recorded it, and nothing else is recorded. That a reset keeps the record, and that new entries stand last,
is the model's reading (log 7). -/
def Obligations.FaultRecordKeepsEveryRejection : Prop :=
  ∀ (lat : Nat) (s t : State), s.Inv lat → stepAt lat s = .next t →
    ∃ new : List ErrorCode, t.faultRecord = s.faultRecord ++ new ∧ new.length ≤ 1 ∧
      (∀ e ∈ new, t.err = true ∧ t.status = statusError e) ∧
      (t.err = true → new ≠ [] ∨ t = s.popPorts) ∧
      (s.ports.rst = true → new = [])

/-! ## Bus-level laws and round trips -/

/-- R77: every successful command reverses the bytes of A, within 4 bytes for A2I4 and I2A4 and within 16 for the
others. -/
def Obligations.EveryCommandReversesBytes : Prop :=
  ∀ (lat : Nat) (s : State), s.Due → s.pend.cmd.toNat ≤ 5 → (s.pend.cmd.toNat = 5 → s.pend.ax = 0) →
    ∃ (r : Bus) (t : State), stepAt lat s = .next t ∧ Answers s.popPorts ⟨r, none⟩ t ∧
      (s.pend.cmd.toNat ≤ 1 →
        (∀ j : Nat, j < 4 → r.extractLsb' (8 * j) 8 = s.pend.a.extractLsb' (8 * (3 - j)) 8) ∧
        r.extractLsb' 32 96 = 0) ∧
      (2 ≤ s.pend.cmd.toNat →
        ∀ j : Nat, j < 16 → r.extractLsb' (8 * j) 8 = s.pend.a.extractLsb' (8 * (15 - j)) 8)

/-- R82: the IPv4 commands are inverse to each other, on values and on the buses. -/
def Obligations.Ipv4RoundTripsAreExact : Prop :=
  (∀ (n : BitVec 32) (s : State), ∃ t u, exec (.i2a4 n) s = .next t ∧
    exec (.a2i4 (unpackBuf 4 t.res)) t = .next u ∧ u.res = n.setWidth 128) ∧
  (∀ (b : Buf 4) (s : State), ∃ t u, exec (.a2i4 b) s = .next t ∧
    exec (.i2a4 (operandUint32 t.res)) t = .next u ∧ unpackBuf 4 u.res = b) ∧
  ∀ (lat : Nat) (x y : CmdWord) (a : Bus) (ax ax' : Nat) (s : State), (x = 0 ∧ y = 1 ∨ x = 1 ∧ y = 0) →
    ∃ t u, stepAt lat (s.withPending ⟨x, a, ax⟩) = .next t ∧
      stepAt lat (t.withPending ⟨y, t.res, ax'⟩) = .next u ∧
      u.res.extractLsb' 0 32 = a.extractLsb' 0 32

/-- R92: the IPv6 pair commands are inverse to each other, on values and on the buses. -/
def Obligations.Ipv6PairRoundTripsAreExact : Prop :=
  (∀ (high low : BitVec 64) (s : State), ∃ t u, exec (.p2a6 high low) s = .next t ∧
    exec (.a2p6 (unpackBuf 16 t.res)) t = .next u ∧ u.res = high ++ low) ∧
  (∀ (b : Buf 16) (s : State), ∃ t u, exec (.a2p6 b) s = .next t ∧
    exec (.p2a6 (operandHigh t.res) (operandLow t.res)) t = .next u ∧ unpackBuf 16 u.res = b) ∧
  ∀ (lat : Nat) (x y : CmdWord) (a : Bus) (ax ax' : Nat) (s : State), (x = 2 ∧ y = 3 ∨ x = 3 ∧ y = 2) →
    ∃ t u, stepAt lat (s.withPending ⟨x, a, ax⟩) = .next t ∧
      stepAt lat (t.withPending ⟨y, t.res, ax'⟩) = .next u ∧ u.res = a

/-- R104: the big-integer commands are inverse to each other, and A2B6 agrees with A2P6. -/
def Obligations.BigIntegerRoundTripsAreExact : Prop :=
  (∀ (n : Nat) (s : State), n < 2 ^ 128 → ∃ t u, exec (.b2a6 n) s = .next t ∧
    exec (.a2b6 (unpackBuf 16 t.res)) t = .next u ∧ u.res.toNat = n) ∧
  (∀ (b : Buf 16) (s : State), ∃ t u, exec (.a2b6 b) s = .next t ∧
    exec (.b2a6 t.res.toNat) t = .next u ∧ unpackBuf 16 u.res = b) ∧
  ∀ (b : Buf 16) (s : State), ∃ t u, exec (.a2p6 b) s = .next t ∧ exec (.a2b6 b) s = .next u ∧
    u.res.toNat = (t.res.extractLsb' 64 64).toNat * 2 ^ 64 + (t.res.extractLsb' 0 64).toNat

/-- R54: A2P6 and A2B6 leave identical RES values for the same buffer, and P2A6 and B2A6 for the same number. -/
def Obligations.PairAndBigIntegerViewsAgree : Prop :=
  (∀ (b : Buf 16) (s : State), ∃ t u, exec (.a2p6 b) s = .next t ∧ exec (.a2b6 b) s = .next u ∧ t.res = u.res ∧
    u.res.toNat = (t.res.extractLsb' 64 64).toNat * 2 ^ 64 + (t.res.extractLsb' 0 64).toNat) ∧
  ∀ (high low : BitVec 64) (s : State), ∃ t u, exec (.p2a6 high low) s = .next t ∧
    exec (.b2a6 (high.toNat * 2 ^ 64 + low.toNat)) s = .next u ∧ t.res = u.res

/-! ## Steps, acceptance and completion -/

/-- R145: a step that is due runs the instruction PEND decodes to. With `LAT` = 0 the accepting step runs the presented
one. The machine's step is the step at its own latency. -/
def Obligations.StepRunsDecodedInstruction : Prop :=
  (∀ (lat : Nat) (s : State) (i : Instr), s.Due → decode s.pend = .ok i → stepAt lat s = exec i s.popPorts) ∧
  (∀ (s : State) (i : Instr), s.ports.rst = false → s.busy = false → s.ports.reqValid = true →
    decode s.ports.command = .ok i → stepAt 0 s = exec i (s.popPorts.accept s.ports.command 0)) ∧
  ∀ s : State, step s = stepAt Config.lat s

/-- The instruction a table word stands for is what the very next step runs once the word is placed (the placing is the
model's: log 11). -/
def Obligations.PlacedTableWordRunsNext : Prop :=
  ∀ (s : State) (nbits w : Nat) (i : Instr), decodeTableWord nbits w = some i →
    step (s.withFetchWord nbits w) = exec i (s.withFetchWord nbits w).popPorts

/-- R144: when a command is accepted (`LAT` ≥ 1), what acceptance writes, and that an unaccepted command and a waiting
cycle change nothing but the cycle counts of the model. On the completing step nothing is accepted. What RES holds
meanwhile is not said. -/
def Obligations.AcceptanceLatchesTheCommand : Prop :=
  (∀ (k : Nat) (s : State), s.ports.rst = false → s.busy = false → s.ports.reqValid = true →
    s.reqReady = true ∧ ∃ t, stepAt (k + 1) s = .next t ∧
      t.pend = s.ports.command ∧ t.status = 0x00#8 ∧ t.statusPort = 0x00#8 ∧ t.hostResponse = none ∧ t.busy = true ∧
      t.reqReady = false ∧ t.countdown = k ∧ t.inputs = s.inputs.tail ∧ t.faultRecord = s.faultRecord) ∧
  (∀ (lat : Nat) (s : State), s.ports.rst = false → s.busy = false → s.ports.reqValid = false →
    stepAt lat s = .next { s with inputs := s.inputs.tail }) ∧
  (∀ (lat k : Nat) (s : State), s.ports.rst = false → s.busy = true → s.countdown = k + 1 →
    stepAt lat s = .next { s with inputs := s.inputs.tail, countdown := k }) ∧
  ∀ (lat : Nat) (s : State), s.Due → ∃ t, stepAt lat s = .next t ∧ t.busy = false

/-- For every latency: a command presented to an idle unit is answered `LAT` steps after the accepting step (the
accepting step itself when `LAT` = 0) with its response, whatever the ports carry meanwhile short of a reset. Until then
BUSY = 1, REQ_READY = 0, STATUS = 0x00 and nothing is recorded (R144, R145, R148, R149, R45). -/
def Obligations.AcceptedCommandAnsweredAfterLatency : Prop :=
  ∀ (lat : Nat) (c : Command) (later rest : List PortSample) (s : State),
    s.busy = false → s.inputs = present c later ++ rest → later.length = lat → noReset later →
    (∀ k : Nat, 0 < k → k ≤ lat → ∃ u : State, (machineAt lat).run k s = .next u ∧ u.busy = true ∧
      u.reqReady = false ∧ u.statusPort = 0x00#8 ∧ u.hostResponse = none ∧ u.faultRecord = s.faultRecord) ∧
    ∃ t : State, (machineAt lat).run (lat + 1) s = .next t ∧
      Answers { s with inputs := rest, countdown := 0 } c.response t

/-- For every latency: commands presented one after the other are answered in that order, each once. At the end the host
reads the last one's response, and the fault record has grown by the rejections, in order. The run is safe exactly when
it began so and every command succeeds (R49, R125, R134). The record is the model's own, and that its entries stand
oldest first is the model's choice (log 7). -/
def Obligations.CommandsAnsweredInOrder : Prop :=
  ∀ (lat : Nat) (cs : List (Command × List PortSample)) (rest : List PortSample) (s : State),
    s.busy = false → s.inputs = cs.flatMap (fun p => present p.1 p.2) ++ rest →
    (∀ p ∈ cs, p.2.length = lat ∧ noReset p.2) →
    ∃ t : State, (machineAt lat).run (cs.length * (lat + 1)) s = .next t ∧ t.busy = false ∧ t.inputs = rest ∧
      t.faultRecord = s.faultRecord ++ cs.filterMap (fun p => p.1.response.error) ∧
      (t.noErrorRecorded ↔ s.noErrorRecorded ∧ ∀ p ∈ cs, p.1.response.error = none) ∧
      ∀ p, cs.getLast? = some p → t.hostResponse = some (p.1.response.res, p.1.response.status)

/-- While a command is in flight, what the host presents leaves no trace: two units that differ only in the port values
of the cycles up to its completion, none of them a reset, and in the count of free values drawn (log 9) complete it in
the same cycle and agree on RES, STATUS and BUSY, on every port, on the fault record and on what is still to come (R148,
R149). PEND afterwards is not compared: it is unspecified while BUSY = 0 (R29, log 6). -/
def Obligations.PortsInFlightLeaveNoTrace : Prop :=
  ∀ (lat d : Nat) (s : State) (ps qs rest : List PortSample),
    s.busy = true → ps.length = s.countdown + 1 → qs.length = s.countdown + 1 → noReset ps → noReset qs →
    ∃ t u : State,
      (machineAt lat).run (s.countdown + 1) ({ s with inputs := ps ++ rest } : State) = .next t ∧
      (machineAt lat).run (s.countdown + 1) ({ s with inputs := qs ++ rest, draws := d } : State) = .next u ∧
      t.res = u.res ∧ t.status = u.status ∧ t.busy = false ∧ u.busy = false ∧
      t.resPort = u.resPort ∧ t.statusPort = u.statusPort ∧ t.reqReady = u.reqReady ∧
      t.hostResponse = u.hostResponse ∧ t.hostResponse ≠ none ∧
      t.faultRecord = u.faultRecord ∧ t.inputs = rest ∧ u.inputs = rest ∧ t.countdown = u.countdown

/-- R30: the response of a command depends only on that command. Two units with the same PEND, both due, answer with the
same RES, STATUS and record entry, whatever else they hold. -/
def Obligations.ResponseDependsOnlyOnCommand : Prop :=
  ∀ (lat lat' : Nat) (s s' : State), s.Due → s'.Due → s'.pend = s.pend →
    ∃ r t t', stepAt lat s = .next t ∧ stepAt lat' s' = .next t' ∧
      Answers s.popPorts r t ∧ Answers s'.popPorts r t'

/-- No cycle stops the unit: every step of every state answers a next state, at every latency. No error leaves it stuck
(R125) and there is no trap (R127). -/
def Obligations.EveryCycleContinues : Prop :=
  ∀ (lat : Nat) (s : State), ∃ t, stepAt lat s = .next t

/-- However long nothing is presented, an idle unit holds everything (R133). -/
def Obligations.IdleUnitHoldsItsResponse : Prop :=
  ∀ (lat : Nat) (s : State) (ps rest : List PortSample),
    s.busy = false → s.inputs = ps ++ rest → (∀ p ∈ ps, p.rst = false ∧ p.reqValid = false) →
    (machineAt lat).run ps.length s = .next ({ s with inputs := rest } : State)

/-! ## Reset -/

/-- R140: a cycle with RST = 1 clears BUSY and STATUS and accepts and completes nothing, whatever the state, and
REQ_READY = (RST = 0) and (BUSY = 0). What RES and PEND hold afterwards is not said. -/
def Obligations.ResetTakesPrecedence : Prop :=
  (∀ (lat : Nat) (s : State), s.ports.rst = true → s.reqReady = false ∧ ∃ t, stepAt lat s = .next t ∧
    t.busy = false ∧ t.status = 0x00#8 ∧ t.statusPort = 0x00#8 ∧ t.valid = false ∧ t.err = false ∧ t.ecode = 0 ∧
    t.hostResponse = none ∧ t.inputs = s.inputs.tail) ∧
  ∀ s : State, s.reqReady = true ↔ s.ports.rst = false ∧ s.busy = false

/-- R141: a command in flight that a reset cuts off produces no response, and issuing it again gives the response it
would have given. -/
def Obligations.ReissueAfterResetGivesSameResponse : Prop :=
  ∀ (lat : Nat) (s : State) (p : PortSample) (later rest : List PortSample),
    s.busy = true → p.rst = true → s.inputs = p :: present s.pend later ++ rest → later.length = lat →
    noReset later →
    ∃ cut wouldBe t : State, stepAt lat s = .next cut ∧ cut.hostResponse = none ∧ cut.statusPort = 0x00#8 ∧
      complete s = .next wouldBe ∧ (machineAt lat).run (lat + 2) s = .next t ∧
      t.hostResponse = wouldBe.hostResponse ∧ t.hostResponse ≠ none

/-- R142: when RST returns to 0 the unit is idle and ready. The state right after reset has the values R35 gives: STATUS
0x00, BUSY 0. -/
def Obligations.UnitIsReadyOnceResetEnds : Prop :=
  (∀ (lat : Nat) (s t : State), s.ports.rst = true → stepAt lat s = .next t → t.ports.rst = false →
    t.busy = false ∧ t.reqReady = true) ∧
  State.reset.statusPort = 0x00#8 ∧ State.reset.busy = false ∧ State.reset.reqReady = true

/-! ## Invariants -/

/-- Every step keeps the invariant, at every latency and at the machine's own: the STATUS values of R37, STATUS clear
in flight, completion within `LAT` cycles (R28 for `LAT` = 0), RES = 0 and a record entry behind every error response
(R124, R134), AX values of AX's width (R29, R36). -/
def Obligations.StepKeepsInvariant : Prop :=
  (∀ (lat : Nat) (s t : State), s.Inv lat → stepAt lat s = .next t → t.Inv lat) ∧
  ∀ s t : State, s.Inv Config.lat → step s = .next t → t.Inv Config.lat

/-- The state right after reset meets the invariant at every latency. -/
def Obligations.ResetMeetsInvariant : Prop := ∀ lat : Nat, State.reset.Inv lat

/-- R27, R37: STATUS[7:4] reads 0 in every state, and in every state that meets the invariant the port shows one of the
four values, 0x00 while a command is in flight, with ERR and ECODE 0 while VALID = 0 and ECODE = 0 exactly when ERR = 0
(R24, R26). -/
def Obligations.StatusPortShowsFourValues : Prop :=
  (∀ s : State, s.statusPort.extractLsb' 4 4 = 0) ∧
  ∀ (lat : Nat) (s : State), s.Inv lat →
    (s.statusPort = 0x00#8 ∨ s.statusPort = 0x01#8 ∨ s.statusPort = 0x07#8 ∨ s.statusPort = 0x0B#8) ∧
    (s.busy = true → s.statusPort = 0x00#8) ∧
    (s.valid = false → s.err = false ∧ s.ecode = 0) ∧
    (s.ecode = 0 ↔ s.err = false) ∧ s.ecode ≠ 3
end

