-- ==== Sys2Proof/Laws/Operands.lean ====
section
/-! SUPPORT. The lane map and the byte sums: each definition's small lemmas, and that packing and unpacking invert. -/

namespace Sys2Proof.Machine

@[simp] theorem beBytes_nil : beBytes [] = 0 := rfl

@[simp] theorem beBytes_cons (b : Byte) (bs : List Byte) :
    beBytes (b :: bs) = b.toNat * 256 ^ bs.length + beBytes bs := rfl

@[simp] theorem laneSum_nil : laneSum [] = 0 := rfl

@[simp] theorem laneSum_cons (b : Byte) (bs : List Byte) :
    laneSum (b :: bs) = b.toNat + 256 * laneSum bs := rfl

@[simp] theorem bytesBE_getElem (n v i : Nat) (h : i < n) :
    (bytesBE n v)[i] = BitVec.ofNat 8 (v >>> (8 * (n - 1 - i))) := by
  simp [bytesBE]

theorem two_pow_eight_mul (i : Nat) : (2 : Nat) ^ (8 * i) = 256 ^ i := by
  rw [pow_mul]; norm_num

/-- Byte k of a value of any width as a number. -/
theorem extractLsb'_byte {w : Nat} (x : BitVec w) (k : Nat) :
    (x.extractLsb' (8 * k) 8).toNat = x.toNat / 256 ^ k % 256 := by
  rw [BitVec.extractLsb'_toNat, Nat.shiftRight_eq_div_pow, two_pow_eight_mul]

theorem bytesBE_getElem_toNat (n v i : Nat) (h : i < n) :
    ((bytesBE n v)[i]).toNat = v / 256 ^ (n - 1 - i) % 256 := by
  rw [bytesBE_getElem, Nat.shiftRight_eq_div_pow, two_pow_eight_mul, BitVec.toNat_ofNat]

@[simp] theorem subBuf_getElem {n : Nat} (buf : Buf n) (start len : Nat) (h : start + len ≤ n) (i : Nat)
    (hi : i < len) : (subBuf buf start len h)[i] = buf[start + i] := by
  simp [subBuf]

@[simp] theorem unpackBuf_getElem (n : Nat) (a : Bus) (i : Nat) (h : i < n) :
    (unpackBuf n a)[i] = a.extractLsb' (8 * i) 8 := by
  simp [unpackBuf]

theorem laneSum_append (xs ys : List Byte) :
    laneSum (xs ++ ys) = laneSum xs + 256 ^ xs.length * laneSum ys := by
  induction xs with
  | nil => simp
  | cons x xs ih => simp [ih, pow_succ]; ring

/-- A big-endian value is the lane value of the reversed bytes. -/
theorem beBytes_eq_laneSum_reverse (bs : List Byte) : beBytes bs = laneSum bs.reverse := by
  induction bs with
  | nil => rfl
  | cons b bs ih => simp [ih, laneSum_append]; ring

theorem laneSum_lt (bs : List Byte) : laneSum bs < 256 ^ bs.length := by
  induction bs with
  | nil => simp
  | cons b bs ih =>
    have hb := b.isLt
    simp only [laneSum_cons, List.length_cons, pow_succ]
    omega

theorem beBytes_lt (bs : List Byte) : beBytes bs < 256 ^ bs.length := by
  simpa [beBytes_eq_laneSum_reverse] using laneSum_lt bs.reverse

/-- Byte i of a lane value, counted from the least significant, is the i-th byte of the list. -/
theorem laneSum_byte (bs : List Byte) (i : Nat) (h : i < bs.length) :
    laneSum bs / 256 ^ i % 256 = bs[i].toNat := by
  induction bs generalizing i with
  | nil => simp at h
  | cons b bs ih =>
    have hb := b.isLt
    cases i with
    | zero => simp [laneSum_cons]; omega
    | succ i =>
      have hdiv : (b.toNat + 256 * laneSum bs) / 256 = laneSum bs := by omega
      have := ih i (by simpa using h)
      simp only [laneSum_cons, pow_succ', ← Nat.div_div_eq_div_mul, hdiv, List.getElem_cons_succ, this]

theorem beNat_lt {n : Nat} (buf : Buf n) : beNat buf < 256 ^ n := by
  simpa [beNat] using beBytes_lt buf.toList

/-- Byte j of a big-endian value, counted from the least significant, is the buffer's byte j from the end. -/
theorem beNat_byte {n : Nat} (buf : Buf n) (j : Nat) (h : j < n) :
    beNat buf / 256 ^ j % 256 = (buf[n - 1 - j]).toNat := by
  rw [beNat, beBytes_eq_laneSum_reverse, laneSum_byte _ _ (by simpa using h)]
  simp [List.getElem_reverse]

theorem beBytes_append (xs ys : List Byte) :
    beBytes (xs ++ ys) = beBytes xs * 256 ^ ys.length + beBytes ys := by
  induction xs with
  | nil => simp
  | cons x xs ih => simp [ih, pow_add]; ring

theorem beNat_append {m n : Nat} (x : Buf m) (y : Buf n) : beNat (x ++ y) = beNat x * 256 ^ n + beNat y := by
  simp [beNat, Vector.toList_append, beBytes_append]

/-- The list of a number's `n` low bytes, least significant first, has that number's low part as lane value. -/
theorem laneSum_ofFn (n v : Nat) :
    laneSum (List.ofFn fun i : Fin n => BitVec.ofNat 8 (v / 256 ^ i.val)) = v % 256 ^ n := by
  induction n generalizing v with
  | zero => simp [Nat.mod_one]
  | succ n ih =>
    have h := ih (v / 256)
    have hfun : (fun i : Fin n => BitVec.ofNat 8 (v / 256 ^ i.succ.val)) =
        fun i : Fin n => BitVec.ofNat 8 (v / 256 / 256 ^ i.val) := by
      funext i; rw [Nat.div_div_eq_div_mul, ← pow_succ', Fin.val_succ]
    rw [List.ofFn_succ, laneSum_cons, hfun, h, pow_succ', Nat.mod_mul]
    simp

theorem laneSum_toList_lt {n : Nat} (buf : Buf n) : laneSum buf.toList < 256 ^ n := by
  simpa using laneSum_lt buf.toList

/-- A packed buffer of at most 16 bytes as a number. -/
theorem packBuf_toNat {n : Nat} (buf : Buf n) (h : n ≤ 16) : (packBuf buf).toNat = laneSum buf.toList := by
  have hlt := laneSum_toList_lt buf
  have : 256 ^ n ≤ 256 ^ 16 := Nat.pow_le_pow_right (by norm_num) h
  rw [packBuf, BitVec.toNat_ofNat, Nat.mod_eq_of_lt]
  exact lt_of_lt_of_le hlt (by simpa using this)

/-- Lane i of a packed buffer is its byte i (20_memory.md R42). -/
theorem packBuf_lane {n : Nat} (buf : Buf n) (h : n ≤ 16) (i : Nat) (hi : i < n) :
    (packBuf buf).extractLsb' (8 * i) 8 = buf[i] := by
  apply BitVec.eq_of_toNat_eq
  have hb := laneSum_byte buf.toList i (by simpa using hi)
  rw [extractLsb'_byte, packBuf_toNat buf h]
  simpa using hb

/-- Above its lanes a packed buffer is zero (30_encoding.md R67). -/
theorem packBuf_shiftRight {n : Nat} (buf : Buf n) (h : n ≤ 16) : (packBuf buf).toNat / 256 ^ n = 0 := by
  rw [packBuf_toNat buf h]
  exact Nat.div_eq_of_lt (laneSum_toList_lt buf)

@[simp] theorem unpackBuf_packBuf {n : Nat} (buf : Buf n) (h : n ≤ 16) : unpackBuf n (packBuf buf) = buf := by
  ext i hi : 1
  simp only [unpackBuf_getElem, packBuf_lane buf h i hi]

/-- The lane value of an unpacked buffer is the low part of the bus. -/
theorem laneSum_unpackBuf (n : Nat) (a : Bus) : laneSum (unpackBuf n a).toList = a.toNat % 256 ^ n := by
  have hl : (unpackBuf n a).toList = List.ofFn fun i : Fin n => BitVec.ofNat 8 (a.toNat / 256 ^ i.val) := by
    rw [unpackBuf, Vector.toList_ofFn]
    congr 1
    funext i
    apply BitVec.eq_of_toNat_eq
    simp [Nat.shiftRight_eq_div_pow, two_pow_eight_mul]
  rw [hl, laneSum_ofFn]

/-- Packing an unpacked buffer keeps the lanes read and clears the others (30_encoding.md R65, R67). -/
theorem packBuf_unpackBuf (n : Nat) (a : Bus) :
    packBuf (unpackBuf n a) = BitVec.ofNat 128 (a.toNat % 256 ^ n) := by
  rw [packBuf, laneSum_unpackBuf]

@[simp] theorem packBuf_unpackBuf_full (a : Bus) : packBuf (unpackBuf 16 a) = a := by
  rw [packBuf_unpackBuf, Nat.mod_eq_of_lt (by simpa using a.isLt)]
  simp

/-- The big-endian bytes of a number are the reversed lanes of any bus that agrees with it in those bytes. -/
theorem bytesBE_eq_reverse (n v : Nat) (a : Bus) (h : v % 256 ^ n = a.toNat % 256 ^ n) :
    bytesBE n v = (unpackBuf n a).reverse := by
  ext i hi : 1
  apply BitVec.eq_of_toNat_eq
  rw [bytesBE_getElem_toNat _ _ _ hi, Vector.getElem_reverse, unpackBuf_getElem, extractLsb'_byte]
  have low (x : Nat) : x / 256 ^ (n - 1 - i) % 256 = x % 256 ^ n / 256 ^ (n - 1 - i) % 256 := by
    have hsplit : 256 ^ n = 256 ^ (n - 1 - i) * 256 ^ (i + 1) := by rw [← pow_add]; congr 1; omega
    rw [hsplit, Nat.mod_mul_right_div_self, Nat.mod_mod_of_dvd _ (dvd_pow_self 256 (by omega))]
  rw [low v, low a.toNat, h]

/-- The two halves of a 16-byte buffer make it up (42_ipv6_pair.md R90). -/
theorem subBuf_halves (buf : Buf 16) :
    subBuf buf 0 8 (by decide) ++ subBuf buf 8 8 (by decide) = buf := by
  ext i hi : 1
  simp only [Vector.getElem_append, subBuf_getElem]
  split <;> congr 1 <;> omega

@[simp] theorem operandUint32_packUint32 (n : BitVec 32) : operandUint32 (packUint32 n) = n := by
  apply BitVec.eq_of_toNat_eq
  have := n.isLt
  simp only [operandUint32, packUint32, BitVec.extractLsb'_toNat, BitVec.toNat_setWidth, Nat.shiftRight_zero]
  omega

/-- A pair on a bus as one number: `high · 2^64 + low` (30_encoding.md R69). -/
theorem packPair_toNat (high low : BitVec 64) :
    (packPair high low).toNat = high.toNat * 2 ^ 64 + low.toNat := by
  have := low.isLt
  rw [packPair, BitVec.toNat_append, ← Nat.shiftLeft_add_eq_or_of_lt low.isLt, Nat.shiftLeft_eq]

@[simp] theorem operandHigh_packPair (high low : BitVec 64) : operandHigh (packPair high low) = high := by
  apply BitVec.eq_of_toNat_eq
  have := high.isLt
  have := low.isLt
  rw [operandHigh, BitVec.extractLsb'_toNat, packPair_toNat, Nat.shiftRight_eq_div_pow]
  omega

@[simp] theorem operandLow_packPair (high low : BitVec 64) : operandLow (packPair high low) = low := by
  apply BitVec.eq_of_toNat_eq
  have := low.isLt
  rw [operandLow, BitVec.extractLsb'_toNat, packPair_toNat, Nat.shiftRight_zero]
  omega

@[simp] theorem packPair_operands (a : Bus) : packPair (operandHigh a) (operandLow a) = a := by
  apply BitVec.eq_of_toNat_eq
  have := a.isLt
  rw [packPair_toNat, operandHigh, operandLow, BitVec.extractLsb'_toNat, BitVec.extractLsb'_toNat,
    Nat.shiftRight_eq_div_pow, Nat.shiftRight_zero]
  omega

/-- The big operand splits back into A and AX (30_encoding.md R64). -/
theorem packBig_operandBig (a : Bus) (ax : Nat) : packBig (operandBig a ax) = a := by
  apply BitVec.eq_of_toNat_eq
  have := a.isLt
  simp only [packBig, operandBig, BitVec.toNat_ofNat]
  omega

theorem operandBig_div (a : Bus) (ax : Nat) : operandBig a ax / 2 ^ 128 = ax := by
  have := a.isLt
  simp only [operandBig]
  omega

theorem operandBig_packBig (n : Nat) : operandBig (packBig n) (n / 2 ^ 128) = n := by
  simp only [packBig, operandBig, BitVec.toNat_ofNat]
  omega

end Sys2Proof.Machine
end

