-- ==== Sys2Proof/Laws/Decode.lean ====
section
/-! SUPPORT. What the decoder answers for each command word (30_encoding.md R76). -/

namespace Sys2Proof

variable (a : Bus) (ax : Nat)

@[simp] theorem decode_cmd0 : decode ⟨0x00#8, a, ax⟩ = .ok (.a2i4 (Machine.unpackBuf 4 a)) := by
  simp [decode, cmdRsv, cmdOp]
@[simp] theorem decode_cmd1 : decode ⟨0x01#8, a, ax⟩ = .ok (.i2a4 (Machine.operandUint32 a)) := by
  simp [decode, cmdRsv, cmdOp]
@[simp] theorem decode_cmd2 : decode ⟨0x02#8, a, ax⟩ = .ok (.a2p6 (Machine.unpackBuf 16 a)) := by
  simp [decode, cmdRsv, cmdOp]
@[simp] theorem decode_cmd3 :
    decode ⟨0x03#8, a, ax⟩ = .ok (.p2a6 (Machine.operandHigh a) (Machine.operandLow a)) := by
  simp [decode, cmdRsv, cmdOp]
@[simp] theorem decode_cmd4 : decode ⟨0x04#8, a, ax⟩ = .ok (.a2b6 (Machine.unpackBuf 16 a)) := by
  simp [decode, cmdRsv, cmdOp]
@[simp] theorem decode_cmd5 : decode ⟨0x05#8, a, ax⟩ = .ok (.b2a6 (Machine.operandBig a ax)) := by
  simp [decode, cmdRsv, cmdOp]

/-- A command word is one of the six legal ones or above them. -/
theorem cmd_cases (cmd : CmdWord) :
    cmd = 0x00#8 ∨ cmd = 0x01#8 ∨ cmd = 0x02#8 ∨ cmd = 0x03#8 ∨ cmd = 0x04#8 ∨ cmd = 0x05#8 ∨ 5 < cmd.toNat := by
  revert cmd; decide

/-- Above the six legal words the reserved bits are set or OP is 6 or 7. -/
theorem cmd_reserved (cmd : CmdWord) (h : 5 < cmd.toNat) :
    cmdRsv cmd ≠ 0 ∨ 6 ≤ (cmdOp cmd).toNat := by
  revert cmd; decide

/-- A command word above the six legal ones is refused by name. -/
theorem decode_above (c : Command) (h : 5 < c.cmd.toNat) : ∃ e, decode c = .error e := by
  unfold decode
  rcases cmd_reserved c.cmd h with hr | ho
  · exact ⟨.reservedBits, by rw [if_pos hr]⟩
  · split
    · exact ⟨_, rfl⟩
    · split <;> first | omega | exact ⟨_, rfl⟩

/-- Laying a command out as a word and reading it back. -/
theorem ofWord_toWord (c : Command) : Command.ofWord c.toWord = c := by
  obtain ⟨cmd, a, ax⟩ := c
  have h1 := cmd.isLt
  have h2 := a.isLt
  simp only [Command.ofWord, Command.toWord, Command.mk.injEq]
  refine ⟨BitVec.eq_of_toNat_eq ?_, BitVec.eq_of_toNat_eq ?_, ?_⟩
  · rw [BitVec.toNat_ofNat]; omega
  · rw [BitVec.toNat_ofNat]; omega
  · omega

end Sys2Proof
end

