-- ==== Sys2Proof/Laws/Flags.lean ====
section
/-! SUPPORT. The STATUS values as numbers, and what the STATUS port shows of each. -/

namespace Sys2Proof.Machine

@[simp] theorem statusClear_eq : statusClear = 0x00#8 := rfl
@[simp] theorem statusOk_eq : statusOk = 0x01#8 := rfl
@[simp] theorem statusError_range : statusError .range = 0x07#8 := by decide
@[simp] theorem statusError_illegalOp : statusError .illegalOp = 0x0B#8 := by decide

/-- The port read keeps a word whose hardwired bits are zero (10_state.md R27). -/
theorem statusPort_of_status {s : State} {w : StatusWord} (h : s.status = w) (hw : w &&& 0x0F#8 = w) :
    s.statusPort = w := by
  rw [State.statusPort, h, hw]

theorem valid_of_status {s : State} {w : StatusWord} (h : s.status = w) : s.valid = (w &&& 0x0F#8).getLsbD 0 := by
  rw [State.valid, State.statusPort, h]

/-- The masked bits of the STATUS port read zero in every state (10_state.md R27). -/
theorem statusPort_getLsbD_high (s : State) (i : Nat) (h : 4 ≤ i) : s.statusPort.getLsbD i = false := by
  have h15 : (15#8).getLsbD i = false := by
    rcases Nat.lt_or_ge i 8 with hi | hi
    · interval_cases i <;> rfl
    · exact BitVec.getLsbD_of_ge _ _ hi
  simp [State.statusPort, h15]

end Sys2Proof.Machine
end

