-- ==== Sys2Proof/Laws/State.lean ====
section
/-! SUPPORT. One lemma per field per update of the state, so that no proof unfolds a record update. -/

namespace Sys2Proof.Machine

variable (s : State)

section popPorts
@[simp] theorem popPorts_res : s.popPorts.res = s.res := rfl
@[simp] theorem popPorts_status : s.popPorts.status = s.status := rfl
@[simp] theorem popPorts_busy : s.popPorts.busy = s.busy := rfl
@[simp] theorem popPorts_pend : s.popPorts.pend = s.pend := rfl
@[simp] theorem popPorts_countdown : s.popPorts.countdown = s.countdown := rfl
@[simp] theorem popPorts_inputs : s.popPorts.inputs = s.inputs.tail := rfl
@[simp] theorem popPorts_faultRecord : s.popPorts.faultRecord = s.faultRecord := rfl
@[simp] theorem popPorts_draws : s.popPorts.draws = s.draws := rfl
end popPorts

section accept
variable (c : Command) (k : Nat)
@[simp] theorem accept_res : (s.accept c k).res = Config.freeRes s.draws := rfl
@[simp] theorem accept_status : (s.accept c k).status = statusClear := rfl
@[simp] theorem accept_busy : (s.accept c k).busy = true := rfl
@[simp] theorem accept_pend : (s.accept c k).pend = c := rfl
@[simp] theorem accept_countdown : (s.accept c k).countdown = k := rfl
@[simp] theorem accept_inputs : (s.accept c k).inputs = s.inputs := rfl
@[simp] theorem accept_faultRecord : (s.accept c k).faultRecord = s.faultRecord := rfl
@[simp] theorem accept_draws : (s.accept c k).draws = s.draws + 1 := rfl
end accept

section respond
variable (r : Bus) (st : StatusWord)
@[simp] theorem respond_res : (s.respond r st).res = r := rfl
@[simp] theorem respond_status : (s.respond r st).status = st := rfl
@[simp] theorem respond_busy : (s.respond r st).busy = false := rfl
@[simp] theorem respond_pend : (s.respond r st).pend = freePend s.draws := rfl
@[simp] theorem respond_countdown : (s.respond r st).countdown = s.countdown := rfl
@[simp] theorem respond_inputs : (s.respond r st).inputs = s.inputs := rfl
@[simp] theorem respond_faultRecord : (s.respond r st).faultRecord = s.faultRecord := rfl
@[simp] theorem respond_draws : (s.respond r st).draws = s.draws + 1 := rfl
end respond

section succeed
variable (r : Bus)
@[simp] theorem succeed_res : (s.succeed r).res = r := rfl
@[simp] theorem succeed_status : (s.succeed r).status = statusOk := rfl
@[simp] theorem succeed_busy : (s.succeed r).busy = false := rfl
@[simp] theorem succeed_pend : (s.succeed r).pend = freePend s.draws := rfl
@[simp] theorem succeed_countdown : (s.succeed r).countdown = s.countdown := rfl
@[simp] theorem succeed_inputs : (s.succeed r).inputs = s.inputs := rfl
@[simp] theorem succeed_faultRecord : (s.succeed r).faultRecord = s.faultRecord := rfl
@[simp] theorem succeed_draws : (s.succeed r).draws = s.draws + 1 := rfl
end succeed

section reject
variable (e : ErrorCode)
@[simp] theorem reject_res : (s.reject e).res = 0 := rfl
@[simp] theorem reject_status : (s.reject e).status = statusError e := rfl
@[simp] theorem reject_busy : (s.reject e).busy = false := rfl
@[simp] theorem reject_pend : (s.reject e).pend = freePend s.draws := rfl
@[simp] theorem reject_countdown : (s.reject e).countdown = s.countdown := rfl
@[simp] theorem reject_inputs : (s.reject e).inputs = s.inputs := rfl
@[simp] theorem reject_faultRecord : (s.reject e).faultRecord = s.faultRecord ++ [e] := rfl
@[simp] theorem reject_draws : (s.reject e).draws = s.draws + 1 := rfl
end reject

section resetCycle
@[simp] theorem resetCycle_res : s.resetCycle.res = Config.freeRes s.draws := rfl
@[simp] theorem resetCycle_status : s.resetCycle.status = statusClear := rfl
@[simp] theorem resetCycle_busy : s.resetCycle.busy = false := rfl
@[simp] theorem resetCycle_pend : s.resetCycle.pend = freePend s.draws := rfl
@[simp] theorem resetCycle_countdown : s.resetCycle.countdown = 0 := rfl
@[simp] theorem resetCycle_inputs : s.resetCycle.inputs = s.inputs := rfl
@[simp] theorem resetCycle_faultRecord : s.resetCycle.faultRecord = s.faultRecord := rfl
@[simp] theorem resetCycle_draws : s.resetCycle.draws = s.draws + 1 := rfl
end resetCycle

section wait
variable (k : Nat)
@[simp] theorem wait_res : (s.wait k).res = s.res := rfl
@[simp] theorem wait_status : (s.wait k).status = s.status := rfl
@[simp] theorem wait_busy : (s.wait k).busy = s.busy := rfl
@[simp] theorem wait_pend : (s.wait k).pend = s.pend := rfl
@[simp] theorem wait_countdown : (s.wait k).countdown = k := rfl
@[simp] theorem wait_inputs : (s.wait k).inputs = s.inputs := rfl
@[simp] theorem wait_faultRecord : (s.wait k).faultRecord = s.faultRecord := rfl
@[simp] theorem wait_draws : (s.wait k).draws = s.draws := rfl
end wait

end Sys2Proof.Machine
end

