-- ==== Sys2Proof/Laws/Ops.lean ====
section
/-! SUPPORT. What each shared operation does, said once in the terms claims use. -/

namespace Sys2Proof.Machine

theorem ports_of_inputs {s : State} {p : PortSample} {ps : List PortSample} (h : s.inputs = p :: ps) :
    s.ports = p := by
  simp [State.ports, h]

@[simp] theorem response_status_none (r : Bus) : (Response.mk r none).status = 0x01#8 := rfl
@[simp] theorem response_status_range (r : Bus) : (Response.mk r (some .range)).status = 0x07#8 := rfl
@[simp] theorem response_status_illegalOp (r : Bus) : (Response.mk r (some .illegalOp)).status = 0x0B#8 := rfl

/-- RES shows on its port once VALID is 1 (10_state.md R24). -/
theorem resPort_of_valid {s : State} (h : s.valid = true) : s.resPort = s.res := by
  rw [State.resPort, if_pos h]

/-- A completed state whose RES and STATUS are a response's shows them on its ports: bits 7:4 of the three completed
STATUS values are zero and VALID is 1. -/
theorem answers_of_fields {s t : State} {r : Response} (hres : t.res = r.res) (hstatus : t.status = r.status)
    (hbusy : t.busy = false) (hrec : t.faultRecord = s.faultRecord ++ r.error.toList)
    (hin : t.inputs = s.inputs) (hcd : t.countdown = s.countdown) : Answers s r t := by
  have hkeep : r.status &&& 0x0F#8 = r.status ∧ (r.status &&& 0x0F#8).getLsbD 0 = true := by
    obtain ⟨_, _ | e⟩ := r
    · rw [response_status_none]; decide
    · cases e
      · rw [response_status_range]; decide
      · rw [response_status_illegalOp]; decide
  exact ⟨hres, hstatus, (resPort_of_valid ((valid_of_status hstatus).trans hkeep.2)).trans hres,
    statusPort_of_status hstatus hkeep.1, hbusy, hrec, hin, hcd⟩

/-- A successful completion answers with its result and no error. -/
theorem succeed_answers (s : State) (r : Bus) : Answers s ⟨r, none⟩ (s.succeed r) :=
  answers_of_fields rfl rfl rfl (List.append_nil _).symm rfl rfl

/-- The error response answers with RES = 0 and the error, and records it (60_exceptions.md R124, R134). -/
theorem reject_answers (s : State) (e : ErrorCode) : Answers s ⟨0, some e⟩ (s.reject e) :=
  answers_of_fields rfl (by cases e <;> simp) rfl rfl rfl rfl

/-- A free PEND fits its widths. -/
theorem freePend_fits (d : Nat) : (freePend d).fits = true := by
  simp [Command.fits, Command.fitsAt, freePend, Nat.mod_lt]

end Sys2Proof.Machine
end

