-- ==== Sys2Proof/Laws/PerInstr.lean ====
section
/-! SUPPORT. Statements about every instruction as syntax, one lemma for each constructor. -/

namespace Sys2Proof.Laws

/-- The encoded command of a well-formed instruction fits the ports (10_state.md R36). -/
def EncodeFits.Statement (i : Instr) : Prop := i.wellFormed = true → (encode i).fits = true

/-- AX = 0 fits every width. -/
theorem zeroExtension_fits (cmd : CmdWord) (a : Bus) : (Command.mk cmd a 0).fits = true := by
  simp [Command.fits, Command.fitsAt]

theorem EncodeFits.a2i4 (addr : Buf 4) : EncodeFits.Statement (.a2i4 addr) := fun _ => zeroExtension_fits _ _
theorem EncodeFits.i2a4 (n : BitVec 32) : EncodeFits.Statement (.i2a4 n) := fun _ => zeroExtension_fits _ _
theorem EncodeFits.a2p6 (addr : Buf 16) : EncodeFits.Statement (.a2p6 addr) := fun _ => zeroExtension_fits _ _
theorem EncodeFits.p2a6 (high low : BitVec 64) : EncodeFits.Statement (.p2a6 high low) := fun _ => zeroExtension_fits _ _
theorem EncodeFits.a2b6 (addr : Buf 16) : EncodeFits.Statement (.a2b6 addr) := fun _ => zeroExtension_fits _ _

theorem EncodeFits.b2a6 (n : Nat) : EncodeFits.Statement (.b2a6 n) := by
  intro h
  have hn : n < 2 ^ 128 * 2 ^ Config.axWidth := by
    rw [← pow_add]
    exact of_decide_eq_true h
  exact decide_eq_true (Nat.div_lt_of_lt_mul hn)

end Sys2Proof.Laws
end

