-- ==== Sys2Proof/Laws/Response.lean ====
section
/-! SUPPORT. The small lemmas of `busReverse`, `Command.response` and `Answers`. -/

namespace Sys2Proof

/-- Lane j of a reversed bus is lane n−1−j of the bus (30_encoding.md R77). -/
theorem busReverse_lane {n : Nat} (hn : n ≤ 16) (a : Bus) (j : Nat) (h : j < n) :
    (busReverse n a).extractLsb' (8 * j) 8 = a.extractLsb' (8 * (n - 1 - j)) 8 := by
  rw [busReverse, Machine.packBuf_lane _ hn _ h, Vector.getElem_reverse, Machine.unpackBuf_getElem]

/-- A reversed bus is the big-endian value of its lanes (20_memory.md R42). -/
theorem busReverse_toNat {n : Nat} (hn : n ≤ 16) (a : Bus) :
    (busReverse n a).toNat = Machine.beNat (Machine.unpackBuf n a) := by
  rw [busReverse, Machine.packBuf_toNat _ hn, Machine.beNat, Machine.beBytes_eq_laneSum_reverse,
    Vector.toList_reverse]

theorem response_of_illegal {c : Command} (h : 5 < c.cmd.toNat) : c.response = ⟨0, some .illegalOp⟩ := by
  rw [Command.response, if_neg (by omega), if_neg (by omega), if_neg (by omega)]

theorem response_of_range {c : Command} (h : c.cmd.toNat = 5) (hx : c.ax ≠ 0) : c.response = ⟨0, some .range⟩ := by
  rw [Command.response, if_neg (by omega), if_neg (by omega), if_pos h, if_neg hx]

theorem response_error_of_ok {c : Command} (h : c.cmd.toNat < 5 ∨ c.cmd.toNat = 5 ∧ c.ax = 0) :
    c.response.error = none := by
  unfold Command.response
  split
  · rfl
  · split
    · rfl
    · rw [if_pos (by omega), if_pos (by omega)]

/-- After an answer the host reads the response (70_reset_and_hazards.md R146). -/
theorem Machine.hostResponse_of_answers {s t : Machine.State} {r : Response} (h : Machine.Answers s r t) :
    t.hostResponse = some (r.res, r.status) := by
  have hv : t.valid = true := by
    rw [Machine.State.valid, h.statusPort]
    obtain ⟨_, _ | e⟩ := r
    · rw [Machine.response_status_none]; decide
    · cases e
      · rw [Machine.response_status_range]; decide
      · rw [Machine.response_status_illegalOp]; decide
  rw [Machine.State.hostResponse, if_pos hv, h.resPort, h.statusPort]

end Sys2Proof
end

