-- ==== Sys2Proof/Laws/Step.lean ====
section
/-! SUPPORT. What one step does, said once: an equation for each kind of cycle, and the inversion of all of them. -/

namespace Sys2Proof.Machine

/-- Every instruction answers a next state, which is an answer with some response. -/
theorem exec_answers (i : Instr) (s : State) : ∃ r t, exec i s = .next t ∧ Answers s r t := by
  cases i with
  | a2i4 addr => exact ⟨_, _, rfl, succeed_answers s _⟩
  | i2a4 n => exact ⟨_, _, rfl, succeed_answers s _⟩
  | a2p6 addr => exact ⟨_, _, rfl, succeed_answers s _⟩
  | p2a6 high low => exact ⟨_, _, rfl, succeed_answers s _⟩
  | a2b6 addr => exact ⟨_, _, rfl, succeed_answers s _⟩
  | b2a6 n =>
    by_cases h : 2 ^ 128 ≤ n
    · exact ⟨_, _, if_pos h, reject_answers s .range⟩
    · exact ⟨_, _, if_neg h, succeed_answers s _⟩

theorem complete_of_ok {s : State} {i : Instr} (h : decode s.pend = .ok i) : complete s = exec i s := by
  simp [complete, h]

theorem complete_of_error {s : State} {e : DecodeError} (h : decode s.pend = .error e) :
    complete s = .next (s.reject .illegalOp) := by
  simp [complete, h]

/-- A completion is a success or one of the two rejections (60_exceptions.md R121). -/
theorem complete_cases (s : State) :
    (∃ r, complete s = .next (s.succeed r)) ∨ ∃ e, complete s = .next (s.reject e) := by
  cases h : decode s.pend with
  | error e => exact .inr ⟨_, complete_of_error h⟩
  | ok i =>
    rw [complete_of_ok h]
    cases i with
    | b2a6 n =>
      by_cases hn : 2 ^ 128 ≤ n
      · exact .inr ⟨_, if_pos hn⟩
      · exact .inl ⟨_, if_neg hn⟩
    | _ => exact .inl ⟨_, rfl⟩

section withPending
variable (s : State) (c : Command)
@[simp] theorem withPending_res : (s.withPending c).res = s.res := rfl
@[simp] theorem withPending_status : (s.withPending c).status = s.status := rfl
@[simp] theorem withPending_busy : (s.withPending c).busy = true := rfl
@[simp] theorem withPending_pend : (s.withPending c).pend = c := rfl
@[simp] theorem withPending_countdown : (s.withPending c).countdown = 0 := rfl
@[simp] theorem withPending_faultRecord : (s.withPending c).faultRecord = s.faultRecord := rfl
@[simp] theorem withPending_draws : (s.withPending c).draws = s.draws := rfl

@[simp] theorem withPending_rst : (s.withPending c).ports.rst = false := by
  rcases h : s.inputs with _ | ⟨p, ps⟩ <;> simp [State.ports, State.withPending, h, PortSample.idle]

/-- A placed command is due, so that the very next step completes it. -/
theorem withPending_due : (s.withPending c).Due := ⟨withPending_rst s c, rfl, rfl⟩
end withPending

theorem stepAt_reset {lat : Nat} {s : State} (h : s.ports.rst = true) :
    stepAt lat s = .next s.popPorts.resetCycle := by
  simp [stepAt, cycle, h]

theorem stepAt_wait {lat k : Nat} {s : State} (hr : s.ports.rst = false) (hb : s.busy = true)
    (hc : s.countdown = k + 1) : stepAt lat s = .next (s.popPorts.wait k) := by
  simp [stepAt, cycle, hr, hb, hc]

theorem stepAt_due {lat : Nat} {s : State} (h : s.Due) : stepAt lat s = complete s.popPorts := by
  simp [stepAt, cycle, h.running, h.busy, h.noWait]

theorem stepAt_accept {k : Nat} {s : State} (hr : s.ports.rst = false) (hb : s.busy = false)
    (hv : s.ports.reqValid = true) : stepAt (k + 1) s = .next (s.popPorts.accept s.ports.command k) := by
  simp [stepAt, cycle, hr, hb, hv]

theorem stepAt_acceptNow {s : State} (hr : s.ports.rst = false) (hb : s.busy = false)
    (hv : s.ports.reqValid = true) : stepAt 0 s = complete (s.popPorts.accept s.ports.command 0) := by
  simp [stepAt, cycle, hr, hb, hv]

theorem stepAt_idle {lat : Nat} {s : State} (hr : s.ports.rst = false) (hb : s.busy = false)
    (hv : s.ports.reqValid = false) : stepAt lat s = .next s.popPorts := by
  simp [stepAt, cycle, hr, hb, hv]

/-- Everything a step can do (70_reset_and_hazards.md R152): reset, wait, complete, accept, accept and complete at once,
or hold. -/
theorem stepAt_cases (lat : Nat) (s : State) :
    (s.ports.rst = true ∧ stepAt lat s = .next s.popPorts.resetCycle) ∨
    (∃ k, s.busy = true ∧ s.countdown = k + 1 ∧ stepAt lat s = .next (s.popPorts.wait k)) ∨
    (s.Due ∧ stepAt lat s = complete s.popPorts) ∨
    (∃ k, lat = k + 1 ∧ s.busy = false ∧ stepAt lat s = .next (s.popPorts.accept s.ports.command k)) ∨
    (lat = 0 ∧ s.busy = false ∧ stepAt lat s = complete (s.popPorts.accept s.ports.command 0)) ∨
    (s.busy = false ∧ stepAt lat s = .next s.popPorts) := by
  rcases hr : s.ports.rst with _ | _
  · rcases hb : s.busy with _ | _
    · rcases hv : s.ports.reqValid with _ | _
      · exact .inr (.inr (.inr (.inr (.inr ⟨rfl, stepAt_idle hr hb hv⟩))))
      · cases lat with
        | zero => exact .inr (.inr (.inr (.inr (.inl ⟨rfl, rfl, stepAt_acceptNow hr hb hv⟩))))
        | succ k => exact .inr (.inr (.inr (.inl ⟨k, rfl, rfl, stepAt_accept hr hb hv⟩)))
    · cases hc : s.countdown with
      | zero => exact .inr (.inr (.inl ⟨⟨hr, hb, hc⟩, stepAt_due ⟨hr, hb, hc⟩⟩))
      | succ k => exact .inr (.inl ⟨k, rfl, rfl, stepAt_wait hr hb hc⟩)
  · exact .inl ⟨rfl, stepAt_reset hr⟩

/-- A run starts with its first step. -/
theorem run_of_step (M : Host.Core) (k : Nat) (s t : M.State) (h : M.step s = .next t) :
    M.run (k + 1) s = M.run k t := by
  simp only [Host.Core.run, h]

theorem run_succ {lat k : Nat} {s t : State} (h : stepAt lat s = .next t) :
    (machineAt lat).run (k + 1) s = (machineAt lat).run k t :=
  run_of_step (machineAt lat) k s t h

/-- A completion answers with some response, whatever PEND holds. -/
theorem complete_total (s : State) : ∃ r t, complete s = .next t ∧ Answers s r t := by
  rcases complete_cases s with ⟨r, h⟩ | ⟨e, h⟩
  · exact ⟨_, _, h, succeed_answers s r⟩
  · exact ⟨_, _, h, reject_answers s e⟩

theorem run_zero (lat : Nat) (s : State) : (machineAt lat).run 0 s = .next s := rfl

/-- A run that reached a next state goes on from there. -/
theorem run_add {lat j : Nat} {s t : State} (k : Nat) (h : (machineAt lat).run j s = .next t) :
    (machineAt lat).run (j + k) s = (machineAt lat).run k t := by
  induction j generalizing s with
  | zero => rw [run_zero] at h; cases h; rw [Nat.zero_add]
  | succ j ih =>
    rcases hs : stepAt lat s with u | r | r
    · rw [run_succ hs] at h
      rw [Nat.add_right_comm, run_succ hs, ih h]
    · have : (machineAt lat).run (j + 1) s = .fault r := by
        have hm : (machineAt lat).step s = .fault r := hs
        simp only [Host.Core.run, hm]
      rw [this] at h; cases h
    · have : (machineAt lat).run (j + 1) s = .refused r := by
        have hm : (machineAt lat).step s = .refused r := hs
        simp only [Host.Core.run, hm]
      rw [this] at h; cases h

/-- While a command is in flight and not due, cycles without reset only count down, whatever is presented (R149). -/
theorem run_wait {lat : Nat} (ps rest : List PortSample) (s : State) (k : Nat) (hb : s.busy = true)
    (hn : noReset ps) (hc : s.countdown = ps.length + k) (hi : s.inputs = ps ++ rest) :
    (machineAt lat).run ps.length s = .next ({ s with inputs := rest, countdown := k } : State) := by
  induction ps generalizing s with
  | nil =>
    rw [List.length_nil, Nat.zero_add] at hc
    rw [List.nil_append] at hi
    subst hc hi
    rfl
  | cons p ps ih =>
    have hp : s.ports = p := ports_of_inputs hi
    have hstep : stepAt lat s = .next (s.popPorts.wait (ps.length + k)) :=
      stepAt_wait (by rw [hp]; exact hn p (.head _)) hb (by rw [hc, List.length_cons]; omega)
    rw [List.length_cons, run_succ hstep, ih (s.popPorts.wait (ps.length + k)) hb
      (fun q hq => hn q (.tail _ hq)) rfl (by simp [hi])]
    rfl

end Sys2Proof.Machine
end

