-- ==== Sys2Proof/Tests/Slice0.lean ====
section
/-! SUPPORT. The model's own tests. Expected values come from 95_test_vectors.md or are worked out from the rule named.
Then, for each statement with hypotheses, a witness that meets them. -/

open Sys2Proof Sys2Proof.Machine

namespace Sys2Proof.Tests

/-! ## Helpers -/

/-- A unit with `c` in flight and due. -/
def due (c : Command) : State := { State.reset with pend := c, busy := true }

/-- A unit right after reset with these port values to come. -/
def idleWith (ps : List PortSample) : State := { State.reset with inputs := ps }

/-- RES, STATUS and the fault record of a next state. -/
def answer : Host.Outcome State Fault Refusal → Option (Bus × StatusWord × List ErrorCode)
  | .next t => some (t.res, t.status, t.faultRecord)
  | .fault _ => none
  | .refused _ => none

/-- STATUS and BUSY of a next state, and the command it holds. -/
def progress : Host.Outcome State Fault Refusal → Option (StatusWord × Bool × Command)
  | .next t => some (t.status, t.busy, t.pend)
  | .fault _ => none
  | .refused _ => none

/-- The port values of a host that presents nothing. -/
def quiet : PortSample := .idle

/-! ## Well-formedness: each check refuses an ill-formed term -/

/-- R64: with `BIGW` = 136 an operand of 2^136 cannot be presented, and 2^136 − 1 can. -/
theorem test_wellFormed_refuses_wide_operand :
    Instr.wellFormedAt 136 (.b2a6 (2 ^ 136)) = false ∧ Instr.wellFormedAt 136 (.b2a6 (2 ^ 136 - 1)) = true := by decide

theorem test_wellFormed_refuses_at_bigw : (Instr.b2a6 (2 ^ Config.bigw)).wellFormed = false :=
  decide_eq_false (Nat.lt_irrefl _)

/-- R36: with an AX of 8 bits the value 256 cannot be presented. With `BIGW` = 128 there is no AX but 0. -/
theorem test_fits_refuses_wide_extension :
    Command.fitsAt 8 ⟨5, 0, 256⟩ = false ∧ Command.fitsAt 8 ⟨5, 0, 255⟩ = true ∧ Command.fitsAt 0 ⟨5, 0, 1⟩ = false := by
  decide

/-! ## Decoding: words written out from R57 and R60 to R64 -/

/-- W1, with `A[127:32]` nonzero as in V41.7. -/
theorem test_decode_a2i4 :
    decode ⟨0b00000_000#8, 0x0000000000000000DEADBEEF0101A8C0#128, 0⟩ = .ok (.a2i4 #v[0xC0, 0xA8, 0x01, 0x01]) := by decide

/-- V41.13. -/
theorem test_decode_i2a4 :
    decode ⟨0b00000_001#8, 0x000FFFF0000000000000000001020304#128, 0⟩ = .ok (.i2a4 0x01020304#32) := by decide

/-- V42.6. -/
theorem test_decode_a2p6 :
    decode ⟨0b00000_010#8, 0x100F0E0D0C0B0A090807060504030201#128, 0⟩ =
      .ok (.a2p6 #v[1, 2, 3, 4, 5, 6, 7, 8, 9, 10, 11, 12, 13, 14, 15, 16]) := by decide

/-- V42.12. -/
theorem test_decode_p2a6 :
    decode ⟨0b00000_011#8, 0x0102030405060708090A0B0C0D0E0F10#128, 0⟩ =
      .ok (.p2a6 0x0102030405060708#64 0x090A0B0C0D0E0F10#64) := by decide

/-- V43.3. -/
theorem test_decode_a2b6 :
    decode ⟨0b00000_100#8, 0x80#128, 0⟩ = .ok (.a2b6 #v[0x80, 0, 0, 0, 0, 0, 0, 0, 0, 0, 0, 0, 0, 0, 0, 0]) := by decide

/-- V43.13. -/
theorem test_decode_b2a6 : decode ⟨0b00000_101#8, 5#128, 1⟩ = .ok (.b2a6 (2 ^ 128 + 5)) := by decide

/-- R58, R59. -/
theorem test_decode_refuses_by_name :
    decode ⟨0x06#8, 0, 0⟩ = .error .reservedOp ∧ decode ⟨0x07#8, 0, 0⟩ = .error .reservedOp ∧
    decode ⟨0x0D#8, 0, 1⟩ = .error .reservedBits ∧ decode ⟨0x80#8, 0, 0⟩ = .error .reservedBits := by decide

/-- R72: the assembler packs by the same rules and writes 0 in the ignored bits. -/
theorem test_encode_a2i4 : encode (.a2i4 #v[0xC0, 0xA8, 0x01, 0x01]) = ⟨0x00#8, 0x0101A8C0#128, 0⟩ := by decide

theorem test_encode_b2a6 : encode (.b2a6 (2 ^ 128 + 0x1234)) = ⟨0x05#8, 0x1234#128, 1⟩ := by decide

theorem test_decodeTableWord :
    decodeTableWord 8 0x01 = some (.i2a4 0) ∧ decodeTableWord 8 0x05 = some (.b2a6 0) ∧ decodeTableWord 8 0x06 = none := by
  decide

/-! ## Meanings: the completing step on the vectors of 95_test_vectors.md -/

/-- W1. -/
theorem test_a2i4_w1 :
    answer (stepAt 0 (due ⟨0x00, 0x0000000000000000000000000101A8C0, 0⟩)) =
      some (0x000000000000000000000000C0A80101, 0x01, []) := by decide

/-- V41.7: `A[127:32]` is ignored. -/
theorem test_a2i4_ignores_high_lanes :
    answer (stepAt 0 (due ⟨0x00, 0x0000000000000000DEADBEEF0101A8C0, 0⟩)) =
      some (0x000000000000000000000000C0A80101, 0x01, []) := by decide

/-- V41.11. -/
theorem test_i2a4_byte_order :
    answer (stepAt 0 (due ⟨0x01, 0x01020304, 0⟩)) = some (0x04030201, 0x01, []) := by decide

/-- V41.10. -/
theorem test_i2a4_one : answer (stepAt 0 (due ⟨0x01, 1, 0⟩)) = some (0x01000000, 0x01, []) := by decide

/-- W3. -/
theorem test_a2p6_w3 :
    answer (stepAt 0 (due ⟨0x02, 0x88880000000000000000604860480120, 0⟩)) =
      some (0x20014860486000000000000000008888, 0x01, []) := by decide

/-- V42.4. -/
theorem test_a2p6_byte_seven :
    answer (stepAt 0 (due ⟨0x02, 0x00000000000000000100000000000000, 0⟩)) =
      some (0x00000000000000010000000000000000, 0x01, []) := by decide

/-- V42.12. -/
theorem test_p2a6_byte_order :
    answer (stepAt 0 (due ⟨0x03, 0x0102030405060708090A0B0C0D0E0F10, 0⟩)) =
      some (0x100F0E0D0C0B0A090807060504030201, 0x01, []) := by decide

/-- V42.10. -/
theorem test_p2a6_high_one :
    answer (stepAt 0 (due ⟨0x03, 0x00000000000000010000000000000000, 0⟩)) =
      some (0x00000000000000000100000000000000, 0x01, []) := by decide

/-- W4. -/
theorem test_a2b6_w4 :
    answer (stepAt 0 (due ⟨0x04, 0x0101A8C0FFFF00000000000000000120, 0⟩)) =
      some (0x20010000000000000000FFFFC0A80101, 0x01, []) := by decide

/-- V60.7: AX is ignored, no RANGE. -/
theorem test_a2b6_ignores_extension :
    answer (stepAt 0 (due ⟨0x04, 0x01000000000000000000000000000000, 0xFF⟩)) = some (1, 0x01, []) := by decide

/-- V43.8. -/
theorem test_b2a6_256 :
    answer (stepAt 0 (due ⟨0x05, 0x100, 0⟩)) = some (0x00010000000000000000000000000000, 0x01, []) := by decide

/-- V43.13: RANGE, no truncation to 5. -/
theorem test_b2a6_range : answer (stepAt 0 (due ⟨0x05, 5, 1⟩)) = some (0, 0x07, [.range]) := by decide

/-- V60.8: ILLEGAL_OP wins and RANGE is never reached. -/
theorem test_illegal_wins : answer (stepAt 0 (due ⟨0x0D, 0, 1⟩)) = some (0, 0x0B, [.illegalOp]) := by decide

/-- V60.1. -/
theorem test_reserved_op : answer (stepAt 0 (due ⟨0x06, 0xFFFFFFFF, 0⟩)) = some (0, 0x0B, [.illegalOp]) := by decide

/-- P3: the record keeps the RANGE rejection when ILLEGAL_OP follows. -/
theorem test_record_keeps_range :
    answer (stepAt 0 { due ⟨0x08, 0, 0⟩ with faultRecord := [.range] }) = some (0, 0x0B, [.range, .illegalOp]) := by decide

/-- The machine's own step runs a placed table word, at whatever latency it has. -/
theorem test_step_runs_placed_word :
    answer (step (State.reset.withFetchWord 8 0x05)) = some (0, 0x01, []) ∧
    answer (step (State.reset.withFetchWord 8 0x07)) = some (0, 0x0B, [.illegalOp]) := by decide

/-! ## Handshake: one step each -/

/-- V70.2, first cycle of `LAT` = 2: accepted, STATUS = 0x00, BUSY = 1. -/
theorem test_accept_lat2 :
    progress (stepAt 2 (idleWith [⟨false, true, ⟨0, 7, 0⟩⟩])) = some (0x00, true, ⟨0, 7, 0⟩) := by decide

/-- V70.3, V70.4: a command presented while BUSY = 1 is not accepted, and PEND keeps the one accepted. -/
theorem test_busy_keeps_pend :
    progress (stepAt 2 { due ⟨0, 7, 0⟩ with countdown := 1, inputs := [⟨false, true, ⟨1, 9, 0⟩⟩] }) =
      some (0x00, true, ⟨0, 7, 0⟩) := by decide

/-- P4 cycle 1: on the completing step the command presented is not accepted. -/
theorem test_no_acceptance_on_completion :
    answer (stepAt 1 { due ⟨4, 0x01000000000000000000000000000000, 0⟩ with
      inputs := [⟨false, true, ⟨1, 0xFFFFFFFF, 0⟩⟩] }) = some (1, 0x01, []) := by decide

/-- R145: with `LAT` = 0 acceptance and completion are one step. -/
theorem test_lat0_completes_at_once :
    answer (stepAt 0 (idleWith [⟨false, true, ⟨1, 0x01020304, 0⟩⟩])) = some (0x04030201, 0x01, []) := by decide

/-- V70.5: reset discards the command in flight, also on the step that would complete it. -/
theorem test_reset_discards :
    (match stepAt 1 { due ⟨5, 0, 1⟩ with inputs := [⟨true, true, ⟨0, 0, 0⟩⟩] } with
      | .next t => (t.status, t.busy, t.faultRecord) | _ => (0xFF, true, [])) = (0x00, false, []) := by decide

/-- V70.1: REQ_READY = 1 after reset, and 0 while RST = 1. -/
theorem test_reqReady :
    State.reset.reqReady = true ∧ (idleWith [⟨true, false, ⟨0, 0, 0⟩⟩]).reqReady = false ∧ (due ⟨0, 0, 0⟩).reqReady = false := by
  decide

/-- R144: nothing presented, nothing changes. -/
theorem test_idle_holds : progress (stepAt 3 (idleWith [quiet])) = some (0x00, false, ⟨0, 0, 0⟩) := by decide

/-- R27: the hardwired bits of STATUS read 0 whatever the register held. -/
theorem test_statusPort_hardwired : ({ State.reset with status := 0xF1 } : State).statusPort = 0x01 := by decide

/-! ## Witnesses: the hypotheses of each statement are met -/

theorem due_isDue (c : Command) : (due c).Due := ⟨rfl, rfl, rfl⟩

theorem noReset_quiet (n : Nat) : noReset (List.replicate n quiet) := by
  intro p hp
  rw [(List.mem_replicate.mp hp).2]
  rfl

theorem witness_ExactlySixCommandWordsAreLegal :
    (due ⟨0x06, 0, 0⟩).Due ∧ 5 < (due ⟨0x06, 0, 0⟩).pend.cmd.toNat ∧ 5 < (due ⟨0xFF, 0, 0⟩).pend.cmd.toNat :=
  ⟨due_isDue _, by decide, by decide⟩

/-- The largest operand in range, and the largest the ports carry. -/
theorem witness_EncodedInstructionDecodesBack :
    (Instr.a2i4 #v[1, 2, 3, 4]).wellFormed = true ∧ (Instr.b2a6 (2 ^ 128 - 1)).wellFormed = true ∧
    (Instr.b2a6 (2 ^ Config.bigw - 1)).wellFormed = true := by
  refine ⟨rfl, decide_eq_true ?_, decide_eq_true ?_⟩
  · have : 2 ^ 128 ≤ 2 ^ Config.bigw := Nat.pow_le_pow_right (by decide) (Nat.le_add_right _ _)
    omega
  · have : 0 < 2 ^ Config.bigw := Nat.two_pow_pos _
    omega

theorem witness_DecodedCommandEncodesBack :
    (∃ i, decode ⟨0x01, 2 ^ 32 + 7, 3⟩ = .ok i) ∧ (∃ i, decode ⟨0x02, 7, 3⟩ = .ok i) ∧
    (∃ i, decode ⟨0x04, 7, 3⟩ = .ok i) ∧ ∃ i, decode ⟨0x05, 7, 3⟩ = .ok i :=
  ⟨⟨.i2a4 7, by decide⟩, ⟨.a2p6 (unpackBuf 16 7), by decide⟩, ⟨.a2b6 (unpackBuf 16 7), by decide⟩,
    ⟨.b2a6 (3 * 2 ^ 128 + 7), by decide⟩⟩

/-- Pairs of commands that differ only in bits not read: I2A4 in `A[127:32]` and AX, A2B6 in AX, B2A6 in nothing, and the
illegal word 0x06 in all of A and AX. -/
theorem witness_UnreadOperandBitsHaveNoEffect :
    let meets (c c' : Command) : Bool := c'.cmd = c.cmd ∧
      (c.cmd.toNat ≤ 1 → c'.a.extractLsb' 0 32 = c.a.extractLsb' 0 32) ∧
      (2 ≤ c.cmd.toNat → c.cmd.toNat ≤ 5 → c'.a = c.a) ∧ (c.cmd.toNat = 5 → c'.ax = c.ax)
    meets ⟨1, 7, 0⟩ ⟨1, 2 ^ 32 + 7, 3⟩ ∧ meets ⟨4, 7, 0⟩ ⟨4, 7, 3⟩ ∧ meets ⟨5, 7, 3⟩ ⟨5, 7, 3⟩ ∧ meets ⟨6, 7, 0⟩ ⟨6, 8, 3⟩ := by
  decide

theorem witness_BigEndianHelpersInvert : 2 < 3 ∧ 256 ^ 4 - 1 < 256 ^ 4 ∧ 0 < 256 ^ 0 := by decide

theorem witness_B2a6CompletesWithSixteenBytesOrRange : 2 ^ 128 - 1 < 2 ^ 128 ∧ 2 ^ 128 ≤ 2 ^ 128 := by decide

theorem witness_B2a6PadsMinimalEncoding : (0 : Nat) < 2 ^ 128 ∧ 2 ^ 128 - 1 < 2 ^ 128 := by decide

theorem witness_RangeExactlyWhenExtensionNonzero :
    (due ⟨0x05, 0, 1⟩).Due ∧ (due ⟨0x05, 0, 1⟩).pend.cmd = 0x05 ∧ (due ⟨0x05, 0, 1⟩).pend.ax ≠ 0 ∧
    (due ⟨0x05, 9, 0⟩).Due ∧ (due ⟨0x05, 9, 0⟩).pend.fitsAt 0 = true :=
  ⟨due_isDue _, rfl, by decide, due_isDue _, by decide⟩

theorem witness_CommandsRejectedForExactlyTwoCauses :
    (due ⟨0x06, 0, 0⟩).Due ∧ 5 < (0x06 : CmdWord).toNat ∧ (due ⟨0x05, 0, 1⟩).Due ∧
    ((0x05 : CmdWord).toNat = 5 ∧ (1 : Nat) ≠ 0) ∧ (due ⟨0x05, 0, 0⟩).Due ∧ (0x04 : CmdWord).toNat < 5 :=
  ⟨due_isDue _, by decide, due_isDue _, by decide, due_isDue _, by decide⟩

/-- A busy unit that meets the invariant at `LAT` = 1, whatever the width of AX. -/
theorem due_inv (cmd : CmdWord) (a : Bus) : (due ⟨cmd, a, 0⟩).Inv 1 where
  statusLegal := .inl rfl
  busyClear := fun _ => rfl
  dueInTime := fun _ => Nat.one_pos
  rangeShown := fun h => by simp [due, State.reset] at h
  illegalShown := fun h => by simp [due, State.reset] at h
  pendFits := by simp [due, Command.fits, Command.fitsAt]
  portsFit := by simp [due, State.reset]

/-- A step that rejects, and a reset that cuts a command off. -/
theorem witness_FaultRecordKeepsEveryRejection :
    (({ State.reset with inputs := [⟨true, false, ⟨0, 0, 0⟩⟩] } : State).Inv 1 ∧
      ({ State.reset with inputs := [⟨true, false, ⟨0, 0, 0⟩⟩] } : State).ports.rst = true) ∧
    (due ⟨0x06, 0, 0⟩).Inv 1 ∧ stepAt 1 (due ⟨0x06, 0, 0⟩) = .next ((due ⟨0x06, 0, 0⟩).popPorts.reject .illegalOp) ∧
    ((due ⟨0x06, 0, 0⟩).popPorts.reject .illegalOp).err = true :=
  ⟨⟨⟨.inl rfl, fun _ => rfl, by simp [State.reset], by simp [State.reset], by simp [State.reset],
    by simp [State.reset, Command.fits, Command.fitsAt], by simp [Command.fits, Command.fitsAt]⟩, rfl⟩,
    due_inv _ _, rfl, by decide⟩

theorem witness_EveryCommandReversesBytes :
    (due ⟨0x01, 3, 0⟩).Due ∧ (due ⟨0x01, 3, 0⟩).pend.cmd.toNat ≤ 1 ∧
    (due ⟨0x05, 3, 0⟩).Due ∧ (due ⟨0x05, 3, 0⟩).pend.cmd.toNat = 5 ∧ (due ⟨0x05, 3, 0⟩).pend.ax = 0 :=
  ⟨due_isDue _, by decide, due_isDue _, by decide, rfl⟩

theorem witness_round_trips_on_the_buses :
    ((0 : CmdWord) = 0 ∧ (1 : CmdWord) = 1) ∧ ((2 : CmdWord) = 2 ∧ (3 : CmdWord) = 3) ∧ 2 ^ 128 - 1 < 2 ^ 128 := by decide

theorem witness_StepRunsDecodedInstruction :
    ((due ⟨0x01, 7, 0⟩).Due ∧ decode (due ⟨0x01, 7, 0⟩).pend = .ok (.i2a4 7)) ∧
    (idleWith [⟨false, true, ⟨1, 7, 0⟩⟩]).ports.rst = false ∧ (idleWith [⟨false, true, ⟨1, 7, 0⟩⟩]).busy = false ∧
    (idleWith [⟨false, true, ⟨1, 7, 0⟩⟩]).ports.reqValid = true ∧
    decode (idleWith [⟨false, true, ⟨1, 7, 0⟩⟩]).ports.command = .ok (.i2a4 7) :=
  ⟨⟨due_isDue _, by decide⟩, by decide, by decide, by decide, by decide⟩

theorem witness_PlacedTableWordRunsNext : decodeTableWord 8 0x04 = some (.a2b6 (unpackBuf 16 0)) := by decide

/-- One witness for each clause: accepted, nothing presented, waiting, due. -/
theorem witness_AcceptanceLatchesTheCommand :
    ((idleWith [⟨false, true, ⟨1, 7, 0⟩⟩]).ports.rst = false ∧ (idleWith [⟨false, true, ⟨1, 7, 0⟩⟩]).busy = false ∧
      (idleWith [⟨false, true, ⟨1, 7, 0⟩⟩]).ports.reqValid = true) ∧
    (State.reset.ports.rst = false ∧ State.reset.busy = false ∧ State.reset.ports.reqValid = false) ∧
    (({ due ⟨1, 7, 0⟩ with countdown := 1 } : State).ports.rst = false ∧
      ({ due ⟨1, 7, 0⟩ with countdown := 1 } : State).busy = true) ∧
    (due ⟨1, 7, 0⟩).Due :=
  ⟨by decide, by decide, by decide, due_isDue _⟩

/-- At `LAT` = 0 and at `LAT` = 2. -/
theorem witness_AcceptedCommandAnsweredAfterLatency :
    ((idleWith (present ⟨1, 7, 0⟩ [] ++ [quiet])).busy = false ∧ ([] : List PortSample).length = 0 ∧ noReset []) ∧
    ((idleWith (present ⟨1, 7, 0⟩ (List.replicate 2 quiet) ++ [])).busy = false ∧
      (List.replicate 2 quiet).length = 2 ∧ noReset (List.replicate 2 quiet)) :=
  ⟨⟨rfl, rfl, noReset_quiet 0⟩, ⟨rfl, rfl, noReset_quiet 2⟩⟩

/-- The first two commands of P3, at `LAT` = 1. -/
theorem witness_CommandsAnsweredInOrder :
    let cs : List (Command × List PortSample) := [(⟨5, 0x1234, 1⟩, [quiet]), (⟨8, 0, 0⟩, [quiet])]
    (idleWith (cs.flatMap (fun p => present p.1 p.2) ++ [])).busy = false ∧
    ∀ p ∈ cs, p.2.length = 1 ∧ noReset p.2 := by
  refine ⟨rfl, ?_⟩
  simp only [List.mem_cons, List.not_mem_nil, or_false, forall_eq_or_imp, forall_eq]
  exact ⟨⟨rfl, noReset_quiet 1⟩, rfl, noReset_quiet 1⟩

/-- Two cycles left, with the lines quiet or with another command presented. -/
theorem witness_PortsInFlightLeaveNoTrace :
    ({ due ⟨1, 7, 0⟩ with countdown := 1 } : State).busy = true ∧
    (List.replicate 2 quiet).length = ({ due ⟨1, 7, 0⟩ with countdown := 1 } : State).countdown + 1 ∧
    noReset (List.replicate 2 quiet) ∧
    noReset (List.replicate 2 (⟨false, true, ⟨4, 9, 0⟩⟩ : PortSample)) := by
  refine ⟨rfl, rfl, noReset_quiet 2, ?_⟩
  intro p hp
  rw [(List.mem_replicate.mp hp).2]

theorem witness_ResponseDependsOnlyOnCommand :
    (due ⟨1, 7, 0⟩).Due ∧ ({ due ⟨1, 7, 0⟩ with res := 5, faultRecord := [.range] } : State).Due ∧
    ({ due ⟨1, 7, 0⟩ with res := 5, faultRecord := [.range] } : State).pend = (due ⟨1, 7, 0⟩).pend :=
  ⟨due_isDue _, ⟨rfl, rfl, rfl⟩, rfl⟩

theorem witness_IdleUnitHoldsItsResponse :
    (idleWith ([quiet, quiet] ++ [])).busy = false ∧
    ∀ p ∈ [quiet, quiet], p.rst = false ∧ p.reqValid = false := by
  refine ⟨rfl, ?_⟩
  simp [quiet, PortSample.idle]

theorem witness_ResetTakesPrecedence :
    ({ due ⟨1, 7, 0⟩ with inputs := [⟨true, true, ⟨0, 0, 0⟩⟩] } : State).ports.rst = true := rfl

/-- P4 cycles 2 to 5, at `LAT` = 1. -/
theorem witness_ReissueAfterResetGivesSameResponse :
    let s : State := { due ⟨1, 0xFFFFFFFF, 0⟩ with
      inputs := ⟨true, false, ⟨0, 0, 0⟩⟩ :: present ⟨1, 0xFFFFFFFF, 0⟩ [quiet] ++ [] }
    s.busy = true ∧ s.inputs = ⟨true, false, ⟨0, 0, 0⟩⟩ :: present s.pend [quiet] ++ [] ∧ noReset [quiet] :=
  ⟨rfl, rfl, noReset_quiet 1⟩

theorem witness_UnitIsReadyOnceResetEnds :
    let s := idleWith [⟨true, false, ⟨0, 0, 0⟩⟩]
    s.ports.rst = true ∧ stepAt 1 s = .next s.popPorts.resetCycle ∧ s.popPorts.resetCycle.ports.rst = false :=
  ⟨rfl, rfl, rfl⟩

/-- At a latency of 1 a due command, and at the machine's own latency a unit that shows a success. -/
theorem witness_StepKeepsInvariant :
    ((due ⟨0x06, 0, 0⟩).Inv 1 ∧ stepAt 1 (due ⟨0x06, 0, 0⟩) = .next ((due ⟨0x06, 0, 0⟩).popPorts.reject .illegalOp)) ∧
    (({ State.reset with status := 0x01 } : State).Inv Config.lat ∧
      step { State.reset with status := 0x01 } = .next ({ State.reset with status := 0x01 } : State).popPorts) := by
  refine ⟨⟨due_inv _ _, rfl⟩, ⟨by decide, ?_, ?_, ?_, ?_, ?_, ?_⟩, stepAt_idle rfl rfl rfl⟩ <;>
    simp [State.reset, Command.fits, Command.fitsAt]

/-- The invariant holds of a busy unit and of one that shows an ILLEGAL_OP response. -/
theorem witness_StatusPortShowsFourValues :
    (due ⟨0x06, 0, 0⟩).Inv 1 ∧ ({ State.reset with status := 0x0B, faultRecord := [.illegalOp] } : State).Inv 1 := by
  refine ⟨due_inv _ _, ⟨by decide, ?_, ?_, ?_, ?_, ?_, ?_⟩⟩ <;> simp [State.reset, Command.fits, Command.fitsAt]

end Sys2Proof.Tests
end

section
/-! The big-endian helpers of 00_scope.md R9 (statement O6): the sum as R9 writes it, and the two inverses. -/

namespace Sys2Proof.Machine

/-- The recursion of `beBytes` is the sum of R9 over a list. -/
theorem beBytes_eq_sum (bs : List Byte) :
    beBytes bs = ∑ i : Fin bs.length, bs[i].toNat * 256 ^ (bs.length - 1 - i.val) := by
  induction bs with
  | nil => rfl
  | cons b bs ih =>
    have shift (i : Fin bs.length) : bs.length - (i.val + 1) = bs.length - 1 - i.val := by omega
    simp [Fin.sum_univ_succ, ih, shift]

theorem beNat_eq_sum {n : Nat} (buf : Buf n) :
    beNat buf = ∑ i : Fin n, buf[i.val].toNat * 256 ^ (n - 1 - i.val) := by
  obtain ⟨⟨bs⟩, rfl⟩ := buf
  exact beBytes_eq_sum bs

/-- Read backwards, the big-endian bytes of a number are its bytes from the least significant up. -/
theorem bytesBE_toList_reverse (n v : Nat) :
    (bytesBE n v).toList.reverse = List.ofFn fun i : Fin n => BitVec.ofNat 8 (v / 256 ^ i.val) := by
  apply List.ext_getElem (by simp)
  intro i hi _
  have hin : i < n := by simpa using hi
  have mirror : n - 1 - (n - 1 - i) = i := by omega
  simp [mirror, Nat.shiftRight_eq_div_pow, two_pow_eight_mul]

/-- `BE_N` undoes `bytesBE_N` up to the bytes that N leaves out. -/
theorem beNat_bytesBE (n v : Nat) : beNat (bytesBE n v) = v % 256 ^ n := by
  rw [beNat, beBytes_eq_laneSum_reverse, bytesBE_toList_reverse, laneSum_ofFn]

@[simp] theorem bytesBE_beNat {n : Nat} (buf : Buf n) : bytesBE n (beNat buf) = buf := by
  ext i hi : 1
  apply BitVec.eq_of_toNat_eq
  have mirror : n - 1 - (n - 1 - i) = i := by omega
  rw [bytesBE_getElem_toNat _ _ _ hi, beNat_byte buf _ (by omega)]
  simp only [mirror]

/-- Settles O6. The sum is by induction on the buffer's bytes, `BE_N` of `bytesBE_N` goes through the lane value of the
bytes read backwards, and `bytesBE_N` of `BE_N` compares byte by byte. -/
theorem bigEndianHelpersInvert : Obligations.BigEndianHelpersInvert := by
  refine ⟨fun _ buf => beNat_eq_sum buf, fun N v i h => ?_, fun N v hv => ?_, fun _ buf => bytesBE_beNat buf⟩
  · rw [bytesBE_getElem, BitVec.toNat_ofNat]
  · rw [beNat_bytesBE, Nat.mod_eq_of_lt hv]

end Sys2Proof.Machine
end

section
/-! The response of a command as a function of CMD, A and AX alone (10_state.md R30, statement O28): each operation
leaves the reversed bytes of A (30_encoding.md R77), so that a completion answers with `Command.response`. -/

namespace Sys2Proof.Machine

/-- A bus that holds the big-endian value of a bus's low lanes is that bus reversed. -/
theorem eq_busReverse_of_toNat {n : Nat} (hn : n ≤ 16) {r a : Bus} (h : r.toNat = beNat (unpackBuf n a)) :
    r = busReverse n a :=
  BitVec.eq_of_toNat_eq (h.trans (busReverse_toNat hn a).symm)

/-- The packed big-endian bytes of a number are a bus reversed that holds the number in those bytes. -/
theorem packBuf_bytesBE_eq_busReverse {n v : Nat} {a : Bus} (h : v % 256 ^ n = a.toNat % 256 ^ n) :
    packBuf (bytesBE n v) = busReverse n a := by
  rw [bytesBE_eq_reverse n v a h, busReverse]

/-- The bytes of two numbers one behind the other are the bytes of one number (42_ipv6_pair.md R91). -/
theorem bytesBE_append (m n x y : Nat) :
    bytesBE m x ++ bytesBE n y = bytesBE (m + n) (x % 256 ^ m * 256 ^ n + y % 256 ^ n) := by
  rw [← beNat_bytesBE, ← beNat_bytesBE, ← beNat_append, bytesBE_beNat]

section operations
variable (a : Bus) (s : State)

theorem execA2i4_unpackBuf : execA2i4 (unpackBuf 4 a) s = .next (s.succeed (busReverse 4 a)) := by
  have hlt := beNat_lt (unpackBuf 4 a)
  have hvalue : (packUint32 (.ofNat 32 (beNat (unpackBuf 4 a)))).toNat = beNat (unpackBuf 4 a) := by
    rw [packUint32, BitVec.toNat_setWidth, BitVec.toNat_ofNat]
    omega
  rw [execA2i4, eq_busReverse_of_toNat (by decide) hvalue]

theorem execI2a4_operandUint32 : execI2a4 (operandUint32 a) s = .next (s.succeed (busReverse 4 a)) := by
  have hbytes : (operandUint32 a).toNat % 256 ^ 4 = a.toNat % 256 ^ 4 := by
    rw [operandUint32, BitVec.extractLsb'_toNat, Nat.shiftRight_zero]
    omega
  rw [execI2a4, packBuf_bytesBE_eq_busReverse hbytes]

/-- A buffer's value is its halves' values, as a pair on a bus (20_memory.md R54). -/
theorem packPair_beNat_halves (buf : Buf 16) :
    (packPair (.ofNat 64 (beNat (subBuf buf 0 8 (by decide)))) (.ofNat 64 (beNat (subBuf buf 8 8 (by decide))))).toNat =
      beNat buf := by
  have hhigh := beNat_lt (subBuf buf 0 8 (by decide))
  have hlow := beNat_lt (subBuf buf 8 8 (by decide))
  have happend := beNat_append (subBuf buf 0 8 (by decide)) (subBuf buf 8 8 (by decide))
  rw [subBuf_halves] at happend
  rw [packPair_toNat, BitVec.toNat_ofNat, BitVec.toNat_ofNat]
  omega

theorem execA2p6_unpackBuf : execA2p6 (unpackBuf 16 a) s = .next (s.succeed (busReverse 16 a)) := by
  rw [execA2p6, eq_busReverse_of_toNat (by decide) (packPair_beNat_halves (unpackBuf 16 a))]

theorem execP2a6_operands :
    execP2a6 (operandHigh a) (operandLow a) s = .next (s.succeed (busReverse 16 a)) := by
  have hhigh := (operandHigh a).isLt
  have hlow := (operandLow a).isLt
  have hpair := packPair_toNat (operandHigh a) (operandLow a)
  rw [packPair_operands] at hpair
  rw [execP2a6, bytesBE_append, packBuf_bytesBE_eq_busReverse (a := a) (by omega)]

theorem execA2b6_unpackBuf : execA2b6 (unpackBuf 16 a) s = .next (s.succeed (busReverse 16 a)) := by
  have hlt := beNat_lt (unpackBuf 16 a)
  have hvalue : (packBig (beNat (unpackBuf 16 a))).toNat = beNat (unpackBuf 16 a) := by
    rw [packBig, BitVec.toNat_ofNat]
    omega
  rw [execA2b6, eq_busReverse_of_toNat (by decide) hvalue]

/-- The big operand reaches 2^128 exactly when AX is not 0 (43_ipv6_bigint.md R102). -/
theorem le_operandBig_iff (ax : Nat) : 2 ^ 128 ≤ operandBig a ax ↔ ax ≠ 0 := by
  have := a.isLt
  rw [operandBig]
  omega

theorem execB2a6_of_zeroExtension :
    execB2a6 (operandBig a 0) s = .next (s.succeed (busReverse 16 a)) := by
  have hvalue : operandBig a 0 = a.toNat := by rw [operandBig, Nat.zero_mul, Nat.add_zero]
  rw [execB2a6, if_neg (fun hle => (le_operandBig_iff a 0).mp hle rfl), hvalue, packBuf_bytesBE_eq_busReverse rfl]

theorem execB2a6_of_extension {ax : Nat} (h : ax ≠ 0) :
    execB2a6 (operandBig a ax) s = .next (s.reject .range) :=
  if_pos ((le_operandBig_iff a ax).mpr h)

end operations

/-- A completion answers with the response of the command in PEND (10_state.md R30, 70_reset_and_hazards.md R145). -/
theorem complete_answers (s : State) : ∃ t, complete s = .next t ∧ Answers s s.pend.response t := by
  rcases hp : s.pend with ⟨cmd, a, ax⟩
  have runs {i : Instr} (hd : decode ⟨cmd, a, ax⟩ = .ok i) : complete s = exec i s := complete_of_ok (hp ▸ hd)
  have succeeds {i : Instr} {r : Bus} (hd : decode ⟨cmd, a, ax⟩ = .ok i) (hx : exec i s = .next (s.succeed r)) :
      ∃ t, complete s = .next t ∧ Answers s ⟨r, none⟩ t :=
    ⟨_, (runs hd).trans hx, succeed_answers s r⟩
  rcases cmd_cases cmd with rfl | rfl | rfl | rfl | rfl | rfl | habove
  · exact succeeds (decode_cmd0 a ax) (execA2i4_unpackBuf a s)
  · exact succeeds (decode_cmd1 a ax) (execI2a4_operandUint32 a s)
  · exact succeeds (decode_cmd2 a ax) (execA2p6_unpackBuf a s)
  · exact succeeds (decode_cmd3 a ax) (execP2a6_operands a s)
  · exact succeeds (decode_cmd4 a ax) (execA2b6_unpackBuf a s)
  · by_cases hax : ax = 0
    · subst hax
      exact succeeds (decode_cmd5 a 0) (execB2a6_of_zeroExtension a s)
    · rw [response_of_range rfl hax]
      exact ⟨_, (runs (decode_cmd5 a ax)).trans (execB2a6_of_extension a s hax), reject_answers s .range⟩
  · obtain ⟨e, he⟩ := decode_above ⟨cmd, a, ax⟩ habove
    rw [response_of_illegal habove]
    exact ⟨_, complete_of_error (hp ▸ he), reject_answers s .illegalOp⟩

/-- A due unit answers with the response of the command in PEND, at every latency. -/
theorem stepAt_due_answers (lat : Nat) {s : State} (h : s.Due) :
    ∃ t, stepAt lat s = .next t ∧ Answers s.popPorts s.pend.response t := by
  rw [stepAt_due h]
  exact complete_answers s.popPorts

/-- Settles O28: both units answer with `Command.response` of the PEND they share. -/
theorem responseDependsOnlyOnCommand : Obligations.ResponseDependsOnlyOnCommand := by
  intro lat lat' s s' hs hs' hpend
  obtain ⟨t, ht, hanswer⟩ := stepAt_due_answers lat hs
  obtain ⟨t', ht', hanswer'⟩ := stepAt_due_answers lat' hs'
  rw [hpend] at hanswer'
  exact ⟨s.pend.response, t, t', ht, ht', hanswer, hanswer'⟩

end Sys2Proof.Machine
end

section
/-! Readiness after reset (70_reset_and_hazards.md R142, statement O33) and what the STATUS port can show
(10_state.md R27, R37, statement O36). -/

namespace Sys2Proof.Machine

theorem reqReady_iff (s : State) : s.reqReady = true ↔ s.ports.rst = false ∧ s.busy = false := by
  simp [State.reqReady]

/-- Settles O33: a cycle with RST = 1 is the reset cycle, which clears BUSY, and REQ_READY then follows RST. -/
theorem unitIsReadyOnceResetEnds : Obligations.UnitIsReadyOnceResetEnds := by
  refine ⟨fun lat s t hrst hstep hend => ?_, rfl, rfl, rfl⟩
  obtain rfl : s.popPorts.resetCycle = t := Host.Outcome.next.inj ((stepAt_reset hrst).symm.trans hstep)
  have hidle := resetCycle_busy s.popPorts
  exact ⟨hidle, (reqReady_iff _).mpr ⟨hend, hidle⟩⟩

/-- The reserved field STATUS[7:4] reads 0 in every state (10_state.md R27). -/
theorem statusPort_reserved (s : State) : s.statusPort.extractLsb' 4 4 = 0 := by
  ext i hi
  rw [BitVec.getElem_extractLsb', statusPort_getLsbD_high s _ (Nat.le_add_right 4 i)]
  simp

/-- Under the invariant no hardwired bit masks anything: the port shows the register. -/
theorem statusPort_of_inv {lat : Nat} {s : State} (h : s.Inv lat) : s.statusPort = s.status := by
  rcases h.statusLegal with hw | hw | hw | hw <;> exact statusPort_of_status rfl (by rw [hw]; decide)

/-- Settles O36: the port shows the register, which holds one of four values, and the fields are read off each. -/
theorem statusPortShowsFourValues : Obligations.StatusPortShowsFourValues := by
  refine ⟨statusPort_reserved, fun lat s hinv => ?_⟩
  have hport := statusPort_of_inv hinv
  have hlegal := hinv.statusLegal
  rw [← hport] at hlegal
  refine ⟨hlegal, fun hbusy => hport.trans (hinv.busyClear hbusy), ?_⟩
  simp only [State.valid, State.err, State.ecode]
  rcases hlegal with hw | hw | hw | hw <;> rw [hw] <;> decide

end Sys2Proof.Machine
end

section
/-! The pair view and the big-integer view of an IPv6 address agree (20_memory.md R54, statement O21): each command of
one family is the command of the other on the same operand. -/

namespace Sys2Proof.Machine

/-- A bus as the two halves of a pair (30_encoding.md R69). -/
theorem toNat_eq_operands (a : Bus) : a.toNat = (operandHigh a).toNat * 2 ^ 64 + (operandLow a).toNat := by
  rw [← packPair_toNat, packPair_operands]

/-- A2P6 and A2B6 are one operation: the pair of the halves is the bus that holds the buffer's value. -/
theorem execA2b6_eq_execA2p6 (buf : Buf 16) (s : State) : execA2b6 buf s = execA2p6 buf s := by
  rw [execA2b6, ← packPair_beNat_halves, packBig, BitVec.ofNat_toNat, BitVec.setWidth_eq, execA2p6]

/-- The bytes of a pair's halves one behind the other are the sixteen bytes of the pair's number. -/
theorem bytesBE_pair (high low : BitVec 64) :
    bytesBE 8 high.toNat ++ bytesBE 8 low.toNat = bytesBE 16 (high.toNat * 2 ^ 64 + low.toNat) := by
  have hhigh : high.toNat % 256 ^ 8 = high.toNat := Nat.mod_eq_of_lt high.isLt
  have hlow : low.toNat % 256 ^ 8 = low.toNat := Nat.mod_eq_of_lt low.isLt
  have happend := bytesBE_append 8 8 high.toNat low.toNat
  rwa [hhigh, hlow] at happend

/-- B2A6 of a pair's number, which is below 2^128, is P2A6 of the pair. -/
theorem execB2a6_pair (high low : BitVec 64) (s : State) :
    execB2a6 (high.toNat * 2 ^ 64 + low.toNat) s = execP2a6 high low s := by
  have hlt : high.toNat * 2 ^ 64 + low.toNat < 2 ^ 128 := packPair_toNat high low ▸ (packPair high low).isLt
  rw [execB2a6, if_neg (Nat.not_le.mpr hlt), execP2a6, bytesBE_pair]

/-- Settles O21: in each of the two directions the commands reach the same state, and RES is the number of its halves. -/
theorem pairAndBigIntegerViewsAgree : Obligations.PairAndBigIntegerViewsAgree := by
  refine ⟨fun buf s => ?_, fun high low s => ?_⟩
  · exact ⟨_, _, rfl, execA2b6_eq_execA2p6 buf s, rfl, toNat_eq_operands _⟩
  · exact ⟨_, _, rfl, execB2a6_pair high low s, rfl⟩

end Sys2Proof.Machine
end

section
/-! The lanes of buffers and buses as the statements about the six operations read them: bytes of a big-endian value,
and what stands above a 4-byte result (30_encoding.md R60 to R70). -/

namespace Sys2Proof.Machine

/-- Byte i of a buffer stands in byte n−1−i of a value that equals the buffer's big-endian value. -/
theorem extractLsb'_of_toNat_eq_beNat {n w : Nat} {x : BitVec w} {buf : Buf n} (hx : x.toNat = beNat buf) (i : Nat)
    (hi : i < n) : x.extractLsb' (8 * (n - 1 - i)) 8 = buf[i] := by
  apply BitVec.eq_of_toNat_eq
  have mirror : n - 1 - (n - 1 - i) = i := by omega
  rw [extractLsb'_byte, hx, beNat_byte buf _ (by omega)]
  simp only [mirror]

/-- Lane i of the packed big-endian bytes of a value is its byte n−1−i. -/
theorem bytesBE_toNat_getElem {w : Nat} (x : BitVec w) (n i : Nat) (hi : i < n) :
    (bytesBE n x.toNat)[i] = x.extractLsb' (8 * (n - 1 - i)) 8 :=
  bytesBE_getElem n x.toNat i hi

/-- A big-endian value fits a word as wide as its buffer. -/
theorem toNat_ofNat_beNat {n w : Nat} (buf : Buf n) (hw : 256 ^ n = 2 ^ w) :
    (BitVec.ofNat w (beNat buf)).toNat = beNat buf := by
  rw [BitVec.toNat_ofNat, Nat.mod_eq_of_lt (hw ▸ beNat_lt buf)]

/-- A bus below 2^32 is zero in bits 127 to 32. -/
theorem extractLsb'_high_of_lt {a : Bus} (h : a.toNat < 2 ^ 32) : a.extractLsb' 32 96 = 0 := by
  apply BitVec.eq_of_toNat_eq
  rw [BitVec.extractLsb'_toNat, Nat.shiftRight_eq_div_pow, Nat.div_eq_of_lt h]
  rfl

/-- A 4-byte buffer leaves the bits above its lanes zero (30_encoding.md R67). -/
theorem packBuf_four_high (buf : Buf 4) : (packBuf buf).extractLsb' 32 96 = 0 :=
  extractLsb'_high_of_lt (packBuf_toNat buf (by decide) ▸ laneSum_toList_lt buf)

/-- A uint32 leaves the bits above it zero (30_encoding.md R66). -/
theorem packUint32_high (n : BitVec 32) : (packUint32 n).extractLsb' 32 96 = 0 := by
  apply extractLsb'_high_of_lt
  rw [packUint32, BitVec.toNat_setWidth]
  have := n.isLt
  omega

/-- The 4-byte buffer on a bus is a function of `A[31:0]` (30_encoding.md R60). -/
theorem unpackBuf_four_congr {a b : Bus} (h : a.extractLsb' 0 32 = b.extractLsb' 0 32) :
    unpackBuf 4 a = unpackBuf 4 b := by
  ext i hi : 1
  have lane (x : Bus) : x.extractLsb' (8 * i) 8 = (x.extractLsb' 0 32).extractLsb' (8 * i) 8 :=
    (BitVec.extractLsb'_extractLsb'_of_le (by omega)).symm
  rw [unpackBuf_getElem, unpackBuf_getElem, lane a, lane b, h]

end Sys2Proof.Machine
end

section
/-! Which command words are legal and which operand bits reach the response (30_encoding.md R58, R59, R65, R74, R77;
statements O2, O5, O17). -/

namespace Sys2Proof

/-- The decoder answers an instruction exactly for the command words up to 0x05 (30_encoding.md R59, R74). -/
theorem decode_ok_iff (cmd : CmdWord) (a : Bus) (ax : Nat) :
    (∃ i, decode ⟨cmd, a, ax⟩ = .ok i) ↔ cmd.toNat ≤ 5 := by
  rcases cmd_cases cmd with rfl | rfl | rfl | rfl | rfl | rfl | habove
  · exact iff_of_true ⟨_, decode_cmd0 a ax⟩ (by decide)
  · exact iff_of_true ⟨_, decode_cmd1 a ax⟩ (by decide)
  · exact iff_of_true ⟨_, decode_cmd2 a ax⟩ (by decide)
  · exact iff_of_true ⟨_, decode_cmd3 a ax⟩ (by decide)
  · exact iff_of_true ⟨_, decode_cmd4 a ax⟩ (by decide)
  · exact iff_of_true ⟨_, decode_cmd5 a ax⟩ (by decide)
  · obtain ⟨e, he⟩ := decode_above ⟨cmd, a, ax⟩ habove
    refine iff_of_false ?_ (Nat.not_le.mpr habove)
    rintro ⟨i, hi⟩
    exact nomatch he.symm.trans hi

theorem response_of_ipv4 {c : Command} (h : c.cmd.toNat ≤ 1) : c.response = ⟨busReverse 4 c.a, none⟩ := if_pos h

theorem response_of_ipv6 {c : Command} (hlow : 2 ≤ c.cmd.toNat) (hhigh : c.cmd.toNat ≤ 5)
    (hax : c.cmd.toNat = 5 → c.ax = 0) : c.response = ⟨busReverse 16 c.a, none⟩ := by
  rw [Command.response, if_neg (by omega)]
  split
  · rfl
  · have h5 : c.cmd.toNat = 5 := by omega
    rw [if_pos h5, if_pos (hax h5)]

/-- Commands that agree in CMD and in the bits their operation reads have one response (30_encoding.md R65). -/
theorem response_congr {c c' : Command} (hcmd : c'.cmd = c.cmd)
    (hlanes : c.cmd.toNat ≤ 1 → c'.a.extractLsb' 0 32 = c.a.extractLsb' 0 32)
    (hbus : 2 ≤ c.cmd.toNat → c.cmd.toNat ≤ 5 → c'.a = c.a) (hax : c.cmd.toNat = 5 → c'.ax = c.ax) :
    c'.response = c.response := by
  obtain ⟨cmd, a, ax⟩ := c
  obtain ⟨cmd', a', ax'⟩ := c'
  dsimp only at hcmd hlanes hbus hax
  subst cmd'
  rcases Nat.lt_or_ge 1 cmd.toNat with hlow | h4
  · rcases Nat.lt_or_ge 5 cmd.toNat with habove | hhigh
    · rw [response_of_illegal habove, response_of_illegal habove]
    · obtain rfl := hbus hlow hhigh
      by_cases h5 : cmd.toNat = 5
      · rw [hax h5]
      · have ipv6 (x : Nat) : Command.response ⟨cmd, a', x⟩ = ⟨busReverse 16 a', none⟩ :=
          response_of_ipv6 hlow hhigh (absurd · h5)
        rw [ipv6, ipv6]
  · rw [response_of_ipv4 h4, response_of_ipv4 h4, busReverse, busReverse, Machine.unpackBuf_four_congr (hlanes h4)]

/-- The assembler writes AX only for B2A6 (30_encoding.md R65, R72). -/
theorem encode_ax (i : Instr) (h : (encode i).cmd.toNat ≠ 5) : (encode i).ax = 0 := by
  cases i with
  | b2a6 n => exact absurd rfl h
  | _ => rfl

/-- The assembler writes 0 in `A[127:32]` of A2I4 and I2A4 (30_encoding.md R65, R72). -/
theorem encode_ipv4_high (i : Instr) (h : (encode i).cmd.toNat ≤ 1) : (encode i).a.extractLsb' 32 96 = 0 := by
  cases i with
  | a2i4 addr => exact Machine.packBuf_four_high addr
  | i2a4 n => exact Machine.packUint32_high n
  | _ => exact absurd h (by simp [encode])

namespace Machine

/-- Settles O2: the decoder by its answer for each command word, and an illegal word by the response it is due. -/
theorem exactlySixCommandWordsAreLegal : Obligations.ExactlySixCommandWordsAreLegal := by
  refine ⟨decode_ok_iff, fun lat s hdue habove => ?_⟩
  rw [← response_of_illegal habove]
  exact stepAt_due_answers lat hdue

/-- Settles O5: both commands are answered with the one response their read bits give. -/
theorem unreadOperandBitsHaveNoEffect : Obligations.UnreadOperandBitsHaveNoEffect := by
  refine ⟨fun c c' lat s hcmd hlanes hbus hax => ?_, fun i => ⟨encode_ax i, encode_ipv4_high i⟩⟩
  obtain ⟨t, ht, hanswer⟩ := stepAt_due_answers lat (withPending_due s c)
  obtain ⟨t', ht', hanswer'⟩ := stepAt_due_answers lat (withPending_due s c')
  rw [withPending_pend] at hanswer
  rw [withPending_pend, response_congr hcmd hlanes hbus hax] at hanswer'
  exact ⟨c.response, t, t', ht, ht', hanswer, hanswer'⟩

/-- Settles O17: a due unit answers with `Command.response`, whose lanes are those of the reversed bus. -/
theorem everyCommandReversesBytes : Obligations.EveryCommandReversesBytes := by
  intro lat s hdue hlegal hax
  obtain ⟨t, ht, hanswer⟩ := stepAt_due_answers lat hdue
  rcases Nat.lt_or_ge 1 s.pend.cmd.toNat with hlow | h4
  · rw [response_of_ipv6 hlow hlegal hax] at hanswer
    refine ⟨_, t, ht, hanswer, fun h4 => absurd h4 (Nat.not_le.mpr hlow), fun _ => ?_⟩
    exact busReverse_lane (by decide) s.pend.a
  · rw [response_of_ipv4 h4] at hanswer
    refine ⟨_, t, ht, hanswer, fun _ => ⟨?_, packBuf_four_high _⟩, fun hlow => absurd h4 (Nat.not_le.mpr hlow)⟩
    exact busReverse_lane (by decide) s.pend.a

end Machine

end Sys2Proof
end

section
/-! What the operations without an error case read and leave (41_ipv4_integer.md R80, R81, 42_ipv6_pair.md R90, R91,
43_ipv6_bigint.md R100; statements O7 to O11). -/

namespace Sys2Proof.Machine

/-- Settles O7: the result is a uint32 with the buffer's big-endian value, whose bytes are the buffer's. -/
theorem a2i4CompletesWithBigEndianValue : Obligations.A2i4CompletesWithBigEndianValue := by
  refine ⟨fun a ax => ⟨_, decode_cmd0 a ax, unpackBuf_getElem 4 a⟩, fun addr s => ?_⟩
  have hvalue : (BitVec.ofNat 32 (beNat addr)).toNat = beNat addr := toNat_ofNat_beNat addr rfl
  refine ⟨_, _, rfl, succeed_answers s _, ?_, fun i hi => ?_⟩
  · rw [hvalue, beNat_eq_sum, Fin.sum_univ_four]
    simp
  · have hstart : 24 - 8 * i = 8 * (4 - 1 - i) := by omega
    rw [hstart, extractLsb'_of_toNat_eq_beNat hvalue i hi]

/-- Settles O8: the result is the packed buffer of the operand's big-endian bytes. -/
theorem i2a4CompletesWithBigEndianBytes : Obligations.I2a4CompletesWithBigEndianBytes := by
  refine ⟨decode_cmd1, fun n s => ⟨_, _, rfl, succeed_answers s _, fun i hi => ?_, packBuf_four_high _⟩⟩
  have hstart : 24 - 8 * i = 8 * (4 - 1 - i) := by omega
  rw [packBuf_lane _ (by decide) i hi, bytesBE_toNat_getElem n 4 i hi, hstart]

/-- The value of half a 16-byte buffer as R90 writes it, in a 64-bit word. -/
theorem ofNat_beNat_subBuf_eight (buf : Buf 16) (start : Nat) (h : start + 8 ≤ 16) :
    (BitVec.ofNat 64 (beNat (subBuf buf start 8 h))).toNat =
      ∑ i : Fin 8, buf[start + i.val].toNat * 256 ^ (7 - i.val) := by
  rw [toNat_ofNat_beNat _ rfl, beNat_eq_sum]
  simp

/-- Settles O9: the halves of the result are the words of the buffer's halves, as sums. -/
theorem a2p6CompletesWithBigEndianHalves : Obligations.A2p6CompletesWithBigEndianHalves := by
  refine ⟨fun a ax => ⟨_, decode_cmd2 a ax, unpackBuf_getElem 16 a⟩, fun addr s => ?_⟩
  refine ⟨_, _, rfl, succeed_answers s _, ?_, ?_⟩
  · have hhigh := ofNat_beNat_subBuf_eight addr 0 (by decide)
    simp only [Nat.zero_add] at hhigh
    exact (congrArg BitVec.toNat (operandHigh_packPair _ _)).trans hhigh
  · exact (congrArg BitVec.toNat (operandLow_packPair _ _)).trans (ofNat_beNat_subBuf_eight addr 8 (by decide))

/-- Settles O10: the lanes of the result are the two halves' big-endian bytes, one half behind the other. -/
theorem p2a6CompletesWithBigEndianBytes : Obligations.P2a6CompletesWithBigEndianBytes := by
  have hstart (i : Nat) : 56 - 8 * i = 8 * (8 - 1 - i) := by omega
  refine ⟨decode_cmd3, fun high low s => ⟨_, _, rfl, succeed_answers s _, fun i hi => ?_, fun i hi => ?_⟩⟩
  · rw [packBuf_lane _ (by decide) i (by omega), Vector.getElem_append_left hi, bytesBE_toNat_getElem high 8 i hi,
      hstart]
  · rw [packBuf_lane _ (by decide) (8 + i) (by omega), Vector.getElem_append_right (by omega) (by omega)]
    simp only [Nat.add_sub_cancel_left]
    rw [bytesBE_toNat_getElem low 8 i hi, hstart]

/-- Settles O11: the result is a bus with the buffer's big-endian value, as a sum. -/
theorem a2b6CompletesWithBigEndianValue : Obligations.A2b6CompletesWithBigEndianValue := by
  refine ⟨fun a ax => ⟨_, decode_cmd4 a ax, unpackBuf_getElem 16 a⟩, fun addr s => ?_⟩
  refine ⟨_, _, rfl, succeed_answers s _, ?_⟩
  exact (toNat_ofNat_beNat addr rfl).trans (beNat_eq_sum addr)

end Sys2Proof.Machine
end

section
/-! Round trips of the IPv4 commands (41_ipv4_integer.md R82, statement O18): the bytes reversed twice are the bytes. -/

namespace Sys2Proof

/-- A bus reversed twice keeps its low n lanes and is zero above them. -/
theorem busReverse_busReverse {n : Nat} (hn : n ≤ 16) (a : Bus) :
    busReverse n (busReverse n a) = Machine.packBuf (Machine.unpackBuf n a) := by
  rw [busReverse, busReverse, Machine.unpackBuf_packBuf _ hn, Vector.reverse_reverse]

namespace Machine

/-- The lanes of A that A2I4 reads are `A[31:0]`. -/
theorem packBuf_unpackBuf_four_low (a : Bus) : (packBuf (unpackBuf 4 a)).extractLsb' 0 32 = a.extractLsb' 0 32 := by
  apply BitVec.eq_of_toNat_eq
  rw [packBuf_unpackBuf]
  simp only [BitVec.extractLsb'_toNat, BitVec.toNat_ofNat, Nat.shiftRight_zero]
  omega

/-- The big-endian bytes of a word as wide as the buffer have the word as their value. -/
theorem ofNat_beNat_bytesBE {n w : Nat} (x : BitVec w) (hw : 256 ^ n = 2 ^ w) :
    BitVec.ofNat w (beNat (bytesBE n x.toNat)) = x := by
  rw [beNat_bytesBE, hw, Nat.mod_eq_of_lt x.isLt, BitVec.ofNat_toNat, BitVec.setWidth_eq]

/-- A second command fed with RES of the first leaves in RES what its response to that operand is. -/
theorem stepAt_withPending_twice (lat : Nat) (c : Command) (y : CmdWord) (ax' : Nat) (s : State) :
    ∃ t u, stepAt lat (s.withPending c) = .next t ∧ stepAt lat (t.withPending ⟨y, t.res, ax'⟩) = .next u ∧
      u.res = (Command.response ⟨y, c.response.res, ax'⟩).res := by
  obtain ⟨t, ht, hfirst⟩ := stepAt_due_answers lat (withPending_due s c)
  obtain ⟨u, hu, hsecond⟩ := stepAt_due_answers lat (withPending_due t ⟨y, t.res, ax'⟩)
  have hres : t.res = c.response.res := hfirst.res
  exact ⟨t, u, ht, hu, hres ▸ hsecond.res⟩

/-- Settles O18: on values because `BE_4` and `bytesBE_4` invert each other, on the buses because both commands reverse
the low four lanes. -/
theorem ipv4RoundTripsAreExact : Obligations.Ipv4RoundTripsAreExact := by
  refine ⟨fun n s => ⟨_, _, rfl, rfl, ?_⟩, fun b s => ⟨_, _, rfl, rfl, ?_⟩, fun lat x y a ax ax' s hxy => ?_⟩
  · rw [succeed_res, succeed_res, unpackBuf_packBuf _ (by decide), ofNat_beNat_bytesBE n rfl, packUint32]
  · rw [succeed_res, succeed_res, operandUint32_packUint32, toNat_ofNat_beNat b rfl, bytesBE_beNat,
      unpackBuf_packBuf _ (by decide)]
  · have hx : x.toNat ≤ 1 := by rcases hxy with ⟨rfl, -⟩ | ⟨rfl, -⟩ <;> decide
    have hy : y.toNat ≤ 1 := by rcases hxy with ⟨-, rfl⟩ | ⟨-, rfl⟩ <;> decide
    obtain ⟨t, u, ht, hu, hres⟩ := stepAt_withPending_twice lat ⟨x, a, ax⟩ y ax' s
    refine ⟨t, u, ht, hu, ?_⟩
    rw [hres, response_of_ipv4 hy, response_of_ipv4 hx, busReverse_busReverse (by decide), packBuf_unpackBuf_four_low]

end Machine

end Sys2Proof
end

section
/-! Round trips of the IPv6 pair commands (42_ipv6_pair.md R92, statement O19): on typed operands as on the buses, both
commands reverse all sixteen lanes. -/

namespace Sys2Proof

/-- All sixteen lanes reversed twice are the bus. -/
theorem busReverse_sixteen_involutive (a : Bus) : busReverse 16 (busReverse 16 a) = a := by
  rw [busReverse_busReverse (by decide), Machine.packBuf_unpackBuf_full]

/-- Both pair commands answer with A reversed, whatever AX holds (30_encoding.md R77). -/
theorem response_of_pair {cmd : CmdWord} (h : cmd = 2 ∨ cmd = 3) (a : Bus) (ax : Nat) :
    Command.response ⟨cmd, a, ax⟩ = ⟨busReverse 16 a, none⟩ := by
  have hlow : 2 ≤ cmd.toNat := by rcases h with rfl | rfl <;> decide
  have hhigh : cmd.toNat < 5 := by rcases h with rfl | rfl <;> decide
  exact response_of_ipv6 hlow hhigh.le (absurd · hhigh.ne)

namespace Machine

/-- A2P6 of any buffer reverses the bus that holds the buffer. -/
theorem execA2p6_eq_busReverse (buf : Buf 16) (s : State) :
    execA2p6 buf s = .next (s.succeed (busReverse 16 (packBuf buf))) := by
  rw [← execA2p6_unpackBuf, unpackBuf_packBuf _ (by decide)]

/-- P2A6 of any pair reverses the bus that holds the pair. -/
theorem execP2a6_eq_busReverse (high low : BitVec 64) (s : State) :
    execP2a6 high low s = .next (s.succeed (busReverse 16 (packPair high low))) := by
  rw [← execP2a6_operands, operandHigh_packPair, operandLow_packPair]

/-- Settles O19: each command reverses the bus of its operand, so the second restores what the first was given. -/
theorem ipv6PairRoundTripsAreExact : Obligations.Ipv6PairRoundTripsAreExact := by
  refine ⟨fun high low s => ?_, fun b s => ?_, fun lat x y a ax ax' s hxy => ?_⟩
  · refine ⟨_, _, execP2a6_eq_busReverse high low s, execA2p6_unpackBuf _ _, ?_⟩
    rw [succeed_res, succeed_res, busReverse_sixteen_involutive, packPair]
  · refine ⟨_, _, execA2p6_eq_busReverse b s, execP2a6_operands _ _, ?_⟩
    rw [succeed_res, succeed_res, busReverse_sixteen_involutive, unpackBuf_packBuf _ (by decide)]
  · have hx : x = 2 ∨ x = 3 := hxy.imp And.left And.left
    have hy : y = 2 ∨ y = 3 := (hxy.imp And.right And.right).symm
    obtain ⟨t, u, ht, hu, hres⟩ := stepAt_withPending_twice lat ⟨x, a, ax⟩ y ax' s
    refine ⟨t, u, ht, hu, ?_⟩
    rw [hres, response_of_pair hy, response_of_pair hx, busReverse_sixteen_involutive]

end Machine

end Sys2Proof
end

section
/-! B2A6: its sixteen big-endian bytes below 2^128, and the rejection with RANGE from there up (43_ipv6_bigint.md R101,
R102; statements O12, O14). -/

namespace Sys2Proof

/-- B2A6 without an extension answers with A reversed (30_encoding.md R77). -/
theorem response_of_b2a6_zeroExtension {c : Command} (hcmd : c.cmd = 0x05#8) (hax : c.ax = 0) :
    c.response = ⟨busReverse 16 c.a, none⟩ :=
  response_of_ipv6 (by rw [hcmd]; decide) (by rw [hcmd]; decide) fun _ => hax

/-- B2A6 with any extension is rejected with RANGE, whatever A holds (43_ipv6_bigint.md R102). -/
theorem response_of_b2a6_extension {c : Command} (hcmd : c.cmd = 0x05#8) (hax : c.ax ≠ 0) :
    c.response = ⟨0, some .range⟩ :=
  response_of_range (by rw [hcmd]; rfl) hax

theorem response_status_b2a6_range_iff {c : Command} (hcmd : c.cmd = 0x05#8) :
    c.response.status = 0x07#8 ↔ c.ax ≠ 0 := by
  by_cases hax : c.ax = 0
  · rw [response_of_b2a6_zeroExtension hcmd hax, Machine.response_status_none]
    exact iff_of_false (by decide) (not_not.mpr hax)
  · rw [response_of_b2a6_extension hcmd hax]
    exact iff_of_true (Machine.response_status_range 0) hax

/-- An extension bus of width 0 carries only 0. -/
theorem ax_eq_zero_of_fitsAt_zero {c : Command} (h : c.fitsAt 0 = true) : c.ax = 0 :=
  Nat.lt_one_iff.mp (of_decide_eq_true h)

namespace Machine

theorem exec_b2a6_of_lt {n : Nat} (h : n < 2 ^ 128) (s : State) :
    exec (.b2a6 n) s = .next (s.succeed (packBuf (bytesBE 16 n))) :=
  if_neg (Nat.not_le.mpr h)

theorem exec_b2a6_of_le {n : Nat} (h : 2 ^ 128 ≤ n) (s : State) : exec (.b2a6 n) s = .next (s.reject .range) :=
  if_pos h

/-- Settles O12: below 2^128 the lanes of the result are the operand's big-endian bytes, from there up the completion is
the rejection. -/
theorem b2a6CompletesWithSixteenBytesOrRange : Obligations.B2a6CompletesWithSixteenBytesOrRange := by
  refine ⟨decode_cmd5, fun n s hn => ?_, fun n s hn => ?_, le_operandBig_iff⟩
  · refine ⟨_, _, exec_b2a6_of_lt hn s, succeed_answers s _, fun i hi => ?_⟩
    rw [packBuf_lane _ (by decide) i hi, bytesBE_getElem_toNat 16 n i hi]
  · exact ⟨_, exec_b2a6_of_le hn s, reject_answers s .range⟩

/-- Settles O14: a due B2A6 answers with `Command.response`, whose STATUS is RANGE exactly when AX is not 0. -/
theorem rangeExactlyWhenExtensionNonzero : Obligations.RangeExactlyWhenExtensionNonzero := by
  refine ⟨fun lat s hdue hcmd => ?_, fun lat s hdue hcmd hfits => ?_⟩
  · obtain ⟨t, ht, hanswer⟩ := stepAt_due_answers lat hdue
    refine ⟨t, ht, ?_, le_operandBig_iff _ _, fun hax => ?_⟩
    · rw [hanswer.status, response_status_b2a6_range_iff hcmd]
    · rwa [response_of_b2a6_extension hcmd hax] at hanswer
  · obtain ⟨t, ht, hanswer⟩ := stepAt_due_answers lat hdue
    refine ⟨t, ht, ?_⟩
    rw [hanswer.status, response_of_b2a6_zeroExtension hcmd (ax_eq_zero_of_fitsAt_zero hfits), response_status_none]

end Machine

end Sys2Proof
end

section
/-! The source's zero-padding procedure (43_ipv6_bigint.md R103, statement O13): zero bytes in front of an encoding do
not change its value, and a buffer is determined by its value. -/

namespace Sys2Proof.Machine

/-- The minimal big-endian encoding of a number: its base-256 digits, most significant first, none for 0. -/
def minimalBytes (n : Nat) : List Byte := (Nat.digits 256 n).reverse.map (BitVec.ofNat 8)

theorem minimalBytes_zero : minimalBytes 0 = [] := rfl

theorem minimalBytes_length_le_iff (n k : Nat) : (minimalBytes n).length ≤ k ↔ n < 256 ^ k := by
  rw [minimalBytes, List.length_map, List.length_reverse, Nat.digits_length_le_iff (by decide)]

/-- Bytes read from the least significant up are base-256 digits. -/
theorem laneSum_map_ofNat {ds : List Nat} (h : ∀ d ∈ ds, d < 256) :
    laneSum (ds.map (BitVec.ofNat 8)) = Nat.ofDigits 256 ds := by
  induction ds with
  | nil => rfl
  | cons d ds ih =>
    obtain ⟨hd, hds⟩ := List.forall_mem_cons.mp h
    rw [List.map_cons, laneSum_cons, ih hds, Nat.ofDigits_cons, BitVec.toNat_ofNat, Nat.mod_eq_of_lt hd]

theorem beBytes_minimalBytes (n : Nat) : beBytes (minimalBytes n) = n := by
  rw [beBytes_eq_laneSum_reverse, minimalBytes, ← List.map_reverse, List.reverse_reverse,
    laneSum_map_ofNat fun _ => Nat.digits_lt_base (by decide), Nat.ofDigits_digits]

/-- Zero bytes in front do not change a big-endian value. -/
theorem beBytes_replicate_zero_append (k : Nat) (bs : List Byte) : beBytes (List.replicate k 0 ++ bs) = beBytes bs := by
  induction k with
  | zero => rfl
  | succ k ih =>
    rw [List.replicate_succ, List.cons_append, beBytes_cons, ih]
    simp

/-- The bytes of a list's value are the list itself, when it has the buffer's length. -/
theorem bytesBE_beBytes_toList {n : Nat} {bs : List Byte} (h : bs.length = n) :
    (bytesBE n (beBytes bs)).toList = bs := by
  subst h
  exact congrArg Vector.toList (bytesBE_beNat (⟨bs.toArray, rfl⟩ : Buf bs.length))

/-- `bytesBE_N` pads the minimal encoding on the left with zero bytes. -/
theorem bytesBE_toList_eq_padded {n v : Nat} (h : v < 256 ^ n) :
    (bytesBE n v).toList = List.replicate (n - (minimalBytes v).length) 0 ++ minimalBytes v := by
  have hfit : (minimalBytes v).length ≤ n := (minimalBytes_length_le_iff v n).mpr h
  have hlength : (List.replicate (n - (minimalBytes v).length) 0 ++ minimalBytes v).length = n := by
    rw [List.length_append, List.length_replicate]
    omega
  have hbytes := bytesBE_beBytes_toList hlength
  rwa [beBytes_replicate_zero_append, beBytes_minimalBytes] at hbytes

/-- Settles O13: the buffer in RES is `bytesBE_16` of the operand, which is its minimal encoding padded. -/
theorem b2a6PadsMinimalEncoding : Obligations.B2a6PadsMinimalEncoding := by
  intro n s hn
  have hpadded := bytesBE_toList_eq_padded (n := 16) hn
  refine ⟨_, exec_b2a6_of_lt hn s, ?_⟩
  rw [succeed_res, unpackBuf_packBuf _ (by decide)]
  refine ⟨(minimalBytes_length_le_iff n 16).mpr hn, hpadded, ?_, fun hzero => ?_⟩
  · rw [List.take_replicate, Nat.min_eq_left (Nat.sub_le _ _)]
    exact hpadded
  · rw [hpadded, hzero, minimalBytes_zero]
    rfl

end Sys2Proof.Machine
end

section
/-! Round trips of the big-integer commands and their agreement with A2P6 (43_ipv6_bigint.md R104, statement O20). -/

namespace Sys2Proof.Machine

/-- A buffer's big-endian value fits a bus (43_ipv6_bigint.md R100). -/
theorem packBig_beNat_toNat (buf : Buf 16) : (packBig (beNat buf)).toNat = beNat buf := toNat_ofNat_beNat buf rfl

/-- Settles O20: the round trips because `BE_16` and `bytesBE_16` invert each other, the agreement because A2B6 and A2P6
are one operation. -/
theorem bigIntegerRoundTripsAreExact : Obligations.BigIntegerRoundTripsAreExact := by
  refine ⟨fun n s hn => ?_, fun b s => ?_, fun b s => ?_⟩
  · refine ⟨_, _, exec_b2a6_of_lt hn s, rfl, ?_⟩
    rw [succeed_res, succeed_res, unpackBuf_packBuf _ (by decide), packBig_beNat_toNat, beNat_bytesBE]
    exact Nat.mod_eq_of_lt hn
  · refine ⟨_, _, rfl, exec_b2a6_of_lt (BitVec.isLt _) _, ?_⟩
    rw [succeed_res, succeed_res, packBig_beNat_toNat, bytesBE_beNat, unpackBuf_packBuf _ (by decide)]
  · exact ⟨_, _, rfl, execA2b6_eq_execA2p6 b s, toNat_eq_operands _⟩

end Sys2Proof.Machine
end

section
/-! The two causes of a rejection and the error response (60_exceptions.md R121, R124; statement O15). -/

namespace Sys2Proof

/-- A command with neither cause of a rejection has a success response (60_exceptions.md R121). -/
theorem response_of_ok {c : Command} (h : c.cmd.toNat < 5 ∨ c.cmd.toNat = 5 ∧ c.ax = 0) :
    c.response = ⟨c.response.res, none⟩ := by
  rw [← response_error_of_ok h]

/-- The STATUS of a rejection is the model's error STATUS, `0x03 | (E << 2)` (60_exceptions.md R124). -/
theorem response_status_error (r : Bus) (e : Machine.ErrorCode) :
    (Response.mk r (some e)).status = Machine.statusError e := by
  cases e with
  | range => exact Machine.statusError_range.symm
  | illegalOp => exact Machine.statusError_illegalOp.symm

namespace Machine

/-- Settles O15: a due unit answers with `Command.response`, which is an error for the two causes only. -/
theorem commandsRejectedForExactlyTwoCauses : Obligations.CommandsRejectedForExactlyTwoCauses := by
  refine ⟨fun lat s hdue => ?_, response_status_error 0 .range, response_status_error 0 .illegalOp⟩
  obtain ⟨t, ht, hanswer⟩ := stepAt_due_answers lat hdue
  refine ⟨t, ht, fun habove => ?_, fun ⟨hcmd, hax⟩ => ?_, fun hok => ?_⟩
  · rwa [response_of_illegal habove] at hanswer
  · rwa [response_of_range hcmd hax] at hanswer
  · rw [response_of_ok hok] at hanswer
    exact ⟨_, hanswer⟩

end Machine

end Sys2Proof
end

section
/-! From acceptance to the response, and a reset on the way (70_reset_and_hazards.md R140, R141, R144, R145; statements
O25, O31, O32): an accepted command counts down and is answered, and a reset leaves an idle unit that accepts again. -/

namespace Sys2Proof.Machine

/-- With STATUS clear VALID is 0, so that the host can take no response (70_reset_and_hazards.md R146). -/
theorem hostResponse_of_clear {s : State} (h : s.status = statusClear) : s.hostResponse = none := by
  have hvalid : s.valid = false := valid_of_status h
  rw [State.hostResponse, hvalid, if_neg Bool.false_ne_true]

theorem popPorts_of_inputs {s : State} {p : PortSample} {ps : List PortSample} (h : s.inputs = p :: ps) :
    s.popPorts = { s with inputs := ps } := by
  rw [State.popPorts, h, List.tail_cons]

/-- A unit with a command in flight answers it when its cycles have passed, whatever is presented meanwhile (R149). -/
theorem run_in_flight_answers {lat : Nat} {s : State} {ps rest : List PortSample} (hbusy : s.busy = true)
    (hin : s.inputs = ps ++ rest) (hlen : ps.length = s.countdown + 1) (hquiet : noReset ps) :
    ∃ t, (machineAt lat).run (s.countdown + 1) s = .next t ∧
      Answers { s with inputs := rest, countdown := 0 } s.pend.response t := by
  have hne : ps ≠ [] := List.ne_nil_of_length_eq_add_one hlen
  obtain ⟨waiting, last, rfl⟩ := (List.eq_nil_or_concat' ps).resolve_left hne
  obtain ⟨hwaiting, hlast⟩ : noReset waiting ∧ noReset [last] := List.forall_mem_append.mp hquiet
  have hcount : s.countdown = waiting.length := by simpa using hlen.symm
  have hwait := run_wait (lat := lat) waiting (last :: rest) s 0 hbusy hwaiting hcount (by simpa using hin)
  obtain ⟨t, ht, hanswer⟩ :=
    stepAt_due_answers lat (s := { s with inputs := last :: rest, countdown := 0 }) ⟨hlast last (.head _), hbusy, rfl⟩
  refine ⟨t, ?_, hanswer⟩
  rw [hcount, run_add 1 hwait, run_succ ht, run_zero]

/-- What acceptance writes is overwritten by the completion, but for the count of cycles. -/
theorem answers_of_accept {s t : State} {c : Command} {k : Nat} {r : Response} (h : Answers (s.accept c k) r t) :
    Answers { s with countdown := k } r t :=
  ⟨h.res, h.status, h.resPort, h.statusPort, h.busy, h.faultRecord, h.inputs, h.countdown⟩

section presented
variable {s : State} {c : Command} {later rest : List PortSample}

/-- An idle unit accepts the command presented to it (70_reset_and_hazards.md R144). -/
theorem stepAt_present {k : Nat} (hidle : s.busy = false) (hin : s.inputs = present c later ++ rest) :
    stepAt (k + 1) s = .next (({ s with inputs := later ++ rest } : State).accept c k) := by
  have hports : s.ports = ⟨false, true, c⟩ := ports_of_inputs hin
  rw [stepAt_accept (by rw [hports]) hidle (by rw [hports]), hports, popPorts_of_inputs hin]
  rfl

/-- A unit of latency 0 completes the command presented to it in the same cycle (R145). -/
theorem stepAt_present_zero (hidle : s.busy = false) (hin : s.inputs = present c [] ++ rest) :
    stepAt 0 s = complete (({ s with inputs := rest } : State).accept c 0) := by
  have hports : s.ports = ⟨false, true, c⟩ := ports_of_inputs hin
  rw [stepAt_acceptNow (by rw [hports]) hidle (by rw [hports]), hports, popPorts_of_inputs hin]
  rfl

/-- Until its completing cycle an accepted command stays as acceptance left it, but for the count of cycles. -/
theorem run_present_waits {n j : Nat} (hidle : s.busy = false) (hin : s.inputs = present c later ++ rest)
    (hlen : later.length = n + 1) (hquiet : noReset later) (hj : j ≤ n) :
    (machineAt (n + 1)).run (j + 1) s =
      .next (({ s with inputs := later.drop j ++ rest } : State).accept c (n - j)) := by
  have htake : (later.take j).length = j := List.length_take_of_le (by omega)
  have hwait := run_wait (lat := n + 1) (later.take j) (later.drop j ++ rest)
    (({ s with inputs := later ++ rest } : State).accept c n) (n - j) rfl
    (fun p hp => hquiet p (List.mem_of_mem_take hp)) (by rw [accept_countdown, htake]; omega)
    (by rw [accept_inputs, ← List.append_assoc, List.take_append_drop])
  rw [htake] at hwait
  rw [run_succ (stepAt_present hidle hin), hwait]
  rfl

/-- A command presented to an idle unit is answered `lat` steps after the accepting step (R145). -/
theorem run_present_answers {lat : Nat} (hidle : s.busy = false) (hin : s.inputs = present c later ++ rest)
    (hlen : later.length = lat) (hquiet : noReset later) :
    ∃ t, (machineAt lat).run (lat + 1) s = .next t ∧
      Answers { s with inputs := rest, countdown := 0 } c.response t := by
  cases lat with
  | zero =>
    obtain rfl := List.eq_nil_of_length_eq_zero hlen
    obtain ⟨t, ht, hanswer⟩ := complete_answers (({ s with inputs := rest } : State).accept c 0)
    refine ⟨t, ?_, answers_of_accept hanswer⟩
    rw [run_succ ((stepAt_present_zero hidle hin).trans ht), run_zero]
  | succ n =>
    obtain ⟨t, ht, hanswer⟩ := run_in_flight_answers (lat := n + 1)
      (s := ({ s with inputs := later ++ rest } : State).accept c n) rfl rfl hlen hquiet
    exact ⟨t, (run_succ (stepAt_present hidle hin)).trans ht,
      answers_of_accept (s := { s with inputs := rest }) hanswer⟩

end presented

/-- Settles O25: the accepted command counts down with STATUS clear, and the completing step answers it. -/
theorem acceptedCommandAnsweredAfterLatency : Obligations.AcceptedCommandAnsweredAfterLatency := by
  intro lat c later rest s hidle hin hlen hquiet
  refine ⟨fun k hpos hle => ?_, run_present_answers hidle hin hlen hquiet⟩
  obtain ⟨j, rfl⟩ := Nat.exists_eq_add_one.mpr hpos
  obtain ⟨n, rfl⟩ := Nat.exists_eq_add_one.mpr (hpos.trans_le hle)
  refine ⟨_, run_present_waits hidle hin hlen hquiet (Nat.le_of_succ_le_succ hle), accept_busy _ _ _, ?_,
    statusPort_of_status (accept_status _ _ _) rfl, hostResponse_of_clear (accept_status _ _ _),
    accept_faultRecord _ _ _⟩
  rw [State.reqReady, accept_busy, Bool.not_true, Bool.and_false]

/-- Settles O32: the reset leaves an idle unit without a response, which answers the command presented to it with
`Command.response`, as the cut-off completion would have. -/
theorem reissueAfterResetGivesSameResponse : Obligations.ReissueAfterResetGivesSameResponse := by
  intro lat s p later rest _ hrst hin hlen hquiet
  have hcut : stepAt lat s = .next s.popPorts.resetCycle := stepAt_reset ((ports_of_inputs hin).symm ▸ hrst)
  have hreissue : s.popPorts.resetCycle.inputs = present s.pend later ++ rest := congrArg List.tail hin
  obtain ⟨wouldBe, hcomplete, hwould⟩ := complete_answers s
  obtain ⟨t, ht, hanswer⟩ := run_present_answers (lat := lat) (resetCycle_busy s.popPorts) hreissue hlen hquiet
  refine ⟨_, wouldBe, t, hcut, hostResponse_of_clear (resetCycle_status _),
    statusPort_of_status (resetCycle_status _) rfl, hcomplete, (run_succ hcut).trans ht, ?_, ?_⟩
  · rw [hostResponse_of_answers hanswer, hostResponse_of_answers hwould]
  · rw [hostResponse_of_answers hanswer]
    exact Option.some_ne_none _

/-- Settles O31: a cycle with RST = 1 is the reset cycle, whatever the state and the latency. -/
theorem resetTakesPrecedence : Obligations.ResetTakesPrecedence := by
  refine ⟨fun lat s hrst => ⟨?_, _, stepAt_reset hrst, resetCycle_busy _, resetCycle_status _, ?_⟩, reqReady_iff⟩
  · rw [State.reqReady, hrst, Bool.not_true, Bool.false_and]
  · have hport : s.popPorts.resetCycle.statusPort = 0x00#8 := statusPort_of_status (resetCycle_status _) rfl
    refine ⟨hport, ?_, ?_, ?_, hostResponse_of_clear (resetCycle_status _), rfl⟩
    · rw [State.valid, hport, BitVec.getLsbD_zero]
    · rw [State.err, hport, BitVec.getLsbD_zero]
    · rw [State.ecode, hport]
      decide

end Sys2Proof.Machine
end

section
/-! Decoding and encoding invert each other (30_encoding.md R57, R60 to R65, R72, R76; statements O1, O3, O4): each
operand packs and unpacks to itself, and each bus unpacks and packs to the bits that were read. -/

namespace Sys2Proof

/-- The decoder undoes the assembler on every instruction, well-formed or not. -/
theorem decode_encode (i : Instr) : decode (encode i) = .ok i := by
  cases i with
  | a2i4 addr => rw [encode, decode_cmd0, Machine.unpackBuf_packBuf _ (by decide)]
  | i2a4 n => rw [encode, decode_cmd1, Machine.operandUint32_packUint32]
  | a2p6 addr => rw [encode, decode_cmd2, Machine.unpackBuf_packBuf _ (by decide)]
  | p2a6 high low => rw [encode, decode_cmd3, Machine.operandHigh_packPair, Machine.operandLow_packPair]
  | a2b6 addr => rw [encode, decode_cmd4, Machine.unpackBuf_packBuf _ (by decide)]
  | b2a6 n => rw [encode, decode_cmd5, Machine.operandBig_packBig]

/-- The assembler's command for a well-formed instruction fits the ports (10_state.md R36). -/
theorem encode_fits (i : Instr) (h : i.wellFormed = true) : (encode i).fits = true := by
  cases i with
  | a2i4 addr => exact Laws.EncodeFits.a2i4 addr h
  | i2a4 n => exact Laws.EncodeFits.i2a4 n h
  | a2p6 addr => exact Laws.EncodeFits.a2p6 addr h
  | p2a6 high low => exact Laws.EncodeFits.p2a6 high low h
  | a2b6 addr => exact Laws.EncodeFits.a2b6 addr h
  | b2a6 n => exact Laws.EncodeFits.b2a6 n h

/-- Settles O3: the decoder undoes the assembler, and the layout as one word loses nothing. -/
theorem encodedInstructionDecodesBack : Obligations.EncodedInstructionDecodesBack := by
  intro i hwf
  refine ⟨decode_encode i, encode_fits i hwf, ?_⟩
  rw [ofWord_toWord, decode_encode]

/-- The bits of a command that its operation reads, every other bit zero (30_encoding.md R60 to R65). -/
def Command.readBits (c : Command) : Command :=
  ⟨c.cmd, if c.cmd.toNat ≤ 1 then (c.a.extractLsb' 0 32).setWidth 128 else c.a,
    if c.cmd.toNat = 5 then c.ax else 0⟩

/-- The low four lanes of a bus, packed again, are `A[31:0]` alone. -/
theorem Machine.packBuf_unpackBuf_four (a : Bus) :
    packBuf (unpackBuf 4 a) = (a.extractLsb' 0 32).setWidth 128 := by
  apply BitVec.eq_of_toNat_eq
  rw [packBuf_unpackBuf]
  simp only [BitVec.toNat_ofNat, BitVec.toNat_setWidth, BitVec.extractLsb'_toNat, Nat.shiftRight_zero]
  omega

/-- The assembler gives back the bits that the decoder read, and zero for the others (30_encoding.md R65, R72). -/
theorem encode_of_decode {c : Command} {i : Instr} (h : decode c = .ok i) : encode i = c.readBits := by
  obtain ⟨cmd, a, ax⟩ := c
  have decodes {j : Instr} (hj : decode ⟨cmd, a, ax⟩ = .ok j) : i = j := Except.ok.inj (h.symm.trans hj)
  rcases cmd_cases cmd with rfl | rfl | rfl | rfl | rfl | rfl | habove
  · rw [decodes (decode_cmd0 a ax), encode, Machine.packBuf_unpackBuf_four]; rfl
  · rw [decodes (decode_cmd1 a ax)]; rfl
  · rw [decodes (decode_cmd2 a ax), encode, Machine.packBuf_unpackBuf_full]; rfl
  · rw [decodes (decode_cmd3 a ax), encode, Machine.packPair_operands]; rfl
  · rw [decodes (decode_cmd4 a ax), encode, Machine.packBuf_unpackBuf_full]; rfl
  · rw [decodes (decode_cmd5 a ax), encode, Machine.packBig_operandBig, Machine.operandBig_div]; rfl
  · exact absurd ((decode_ok_iff cmd a ax).mp ⟨i, h⟩) (Nat.not_le.mpr habove)

/-- Settles O4: the encoding is the command's read bits, whose fields the statement lists. -/
theorem decodedCommandEncodesBack : Obligations.DecodedCommandEncodesBack := by
  intro c i h
  rw [encode_of_decode h]
  refine ⟨rfl, fun hlow => ⟨if_pos hlow, if_neg (by omega)⟩, fun h2 => if_neg (by omega),
    fun _ h4 => if_neg (by omega), fun h5 => if_pos h5⟩

/-- Settles O1, by evaluating the decoder on each of the nine commands. -/
theorem specCommandsDecode : Obligations.SpecCommandsDecode := by
  refine ⟨?_, ?_, ?_, ?_, ?_, ?_, ?_, ?_, ?_⟩ <;> decide

end Sys2Proof
end

section
/-! The invariant (10_state.md R24, R28, R29, R37, 60_exceptions.md R124, R134; statements O34, O35): the unit
right after reset meets it, and each kind of cycle keeps it. -/

namespace Sys2Proof.Machine

section cycles
variable {lat : Nat} {s : State}

/-- With STATUS clear only the time left and the widths of the AX values are at stake. -/
theorem inv_of_clear (hstatus : s.status = statusClear) (hdue : s.busy = true → s.countdown < lat)
    (hpend : s.pend.fits = true) (hports : ∀ p ∈ s.inputs, p.command.fits = true) : s.Inv lat where
  statusLegal := .inl hstatus
  busyClear := fun _ => hstatus
  dueInTime := hdue
  rangeShown := fun h => absurd (hstatus.symm.trans h) (by decide)
  illegalShown := fun h => absurd (hstatus.symm.trans h) (by decide)
  pendFits := hpend
  portsFit := hports

theorem inv_succeed (r : Bus) (hports : ∀ p ∈ s.inputs, p.command.fits = true) : (s.succeed r).Inv lat where
  statusLegal := .inr (.inl rfl)
  busyClear := fun h => absurd h Bool.false_ne_true
  dueInTime := fun h => absurd h Bool.false_ne_true
  rangeShown := fun h => absurd h (by rw [succeed_status]; decide)
  illegalShown := fun h => absurd h (by rw [succeed_status]; decide)
  pendFits := freePend_fits s.draws
  portsFit := hports

/-- Each of the two error responses shows RES = 0 and its own code as the last entry of the record (R124, R134). -/
theorem inv_reject (e : ErrorCode) (hports : ∀ p ∈ s.inputs, p.command.fits = true) : (s.reject e).Inv lat where
  statusLegal := by cases e <;> simp
  busyClear := fun h => absurd h Bool.false_ne_true
  dueInTime := fun h => absurd h Bool.false_ne_true
  rangeShown := by cases e <;> simp
  illegalShown := by cases e <;> simp
  pendFits := freePend_fits s.draws
  portsFit := hports

/-- A completion asks nothing of the state but that its ports fit: it writes RES, STATUS, BUSY and PEND. -/
theorem inv_complete {t : State} (h : complete s = .next t) (hports : ∀ p ∈ s.inputs, p.command.fits = true) :
    t.Inv lat := by
  rcases complete_cases s with ⟨r, hr⟩ | ⟨e, he⟩
  · obtain rfl := Host.Outcome.next.inj (hr.symm.trans h)
    exact inv_succeed r hports
  · obtain rfl := Host.Outcome.next.inj (he.symm.trans h)
    exact inv_reject e hports

theorem inv_popPorts (h : s.Inv lat) : s.popPorts.Inv lat :=
  { h with portsFit := fun p hp => h.portsFit p (List.mem_of_mem_tail hp) }

theorem inv_wait {k : Nat} (h : s.Inv lat) (hk : k < lat) : (s.wait k).Inv lat :=
  { h with dueInTime := fun _ => hk }

/-- The command on the ports fits them, also past the end of the list, where the lines are idle (R36). -/
theorem ports_command_fits (h : s.Inv lat) : s.ports.command.fits = true := by
  rcases hin : s.inputs with _ | ⟨p, ps⟩
  · rw [State.ports, hin]
    exact Laws.zeroExtension_fits 0 0
  · rw [ports_of_inputs hin]
    exact h.portsFit p (hin ▸ .head ps)

/-- Each kind of cycle keeps the invariant (70_reset_and_hazards.md R152). -/
theorem inv_stepAt {t : State} (h : s.Inv lat) (hstep : stepAt lat s = .next t) : t.Inv lat := by
  have hpop := inv_popPorts h
  have reaches {u : State} (hu : stepAt lat s = .next u) : u = t := Host.Outcome.next.inj (hu.symm.trans hstep)
  rcases stepAt_cases lat s with ⟨-, hs⟩ | ⟨k, hbusy, hcount, hs⟩ | ⟨-, hs⟩ | ⟨k, rfl, -, hs⟩ | ⟨-, -, hs⟩ | ⟨-, hs⟩
  · -- reset
    obtain rfl := reaches hs
    exact inv_of_clear rfl (absurd · Bool.false_ne_true) (freePend_fits _) hpop.portsFit
  · -- waiting
    obtain rfl := reaches hs
    have hdue := h.dueInTime hbusy
    exact inv_wait hpop (by omega)
  · -- completion
    exact inv_complete (hs.symm.trans hstep) hpop.portsFit
  · -- acceptance
    obtain rfl := reaches hs
    exact inv_of_clear rfl (fun _ => Nat.lt_succ_self k) (ports_command_fits h) hpop.portsFit
  · -- acceptance and completion at once
    exact inv_complete (hs.symm.trans hstep) hpop.portsFit
  · -- nothing presented
    exact reaches hs ▸ hpop

end cycles

/-- Settles O34, one kind of cycle at a time. The machine's step is the step at its own latency. -/
theorem stepKeepsInvariant : Obligations.StepKeepsInvariant :=
  ⟨fun _ _ _ => inv_stepAt, fun _ _ => inv_stepAt⟩

/-- Settles O35: after reset STATUS is clear and the unit idle, and no port value is listed. -/
theorem resetMeetsInvariant : Obligations.ResetMeetsInvariant := fun _ =>
  inv_of_clear rfl (absurd · Bool.false_ne_true) (Laws.zeroExtension_fits 0 0) fun _ hp => absurd hp List.not_mem_nil

end Sys2Proof.Machine
end

section
/-! The fault record (60_exceptions.md R134, statement O16): what a step records and what its STATUS then says. -/

namespace Sys2Proof.Machine

/-- ERR is 1 exactly in an error response (10_state.md R25). -/
theorem err_of_answers {s t : State} {r : Response} (h : Answers s r t) : t.err = r.error.isSome := by
  rw [State.err, h.statusPort]
  obtain ⟨_, _ | e⟩ := r
  · rw [response_status_none, Option.isSome_none]
    decide
  · rw [response_status_error, Option.isSome_some]
    cases e <;> decide

/-- An answer with an error shows the error's STATUS (60_exceptions.md R124). -/
theorem status_of_answers {s t : State} {r : Response} (h : Answers s r t) :
    ∀ c ∈ r.error, t.status = statusError c := by
  obtain ⟨res, error⟩ := r
  rintro c rfl
  exact h.status.trans (response_status_error res c)

theorem err_of_clear {s : State} (h : s.status = statusClear) : s.err = false := by
  rw [State.err, statusPort_of_status h rfl]
  rfl

/-- `t` shows the error that was recorded on the way from `s`, or no error when none was. -/
structure ShowsRecorded (s : State) (e : Option ErrorCode) (t : State) : Prop where
  faultRecord : t.faultRecord = s.faultRecord ++ e.toList
  err         : t.err = e.isSome
  status      : ∀ c ∈ e, t.status = statusError c

/-- A step that leaves STATUS clear and the record alone shows no error and records none. -/
theorem showsRecorded_of_clear {s t : State} (hstatus : t.status = statusClear)
    (hrec : t.faultRecord = s.faultRecord) : ShowsRecorded s none t where
  faultRecord := hrec.trans (List.append_nil _).symm
  err := err_of_clear hstatus
  status := fun _ hc => nomatch hc

/-- A completion records over the record the step began with, also when the step accepted the command first. -/
theorem complete_showsRecorded {s u t : State} (h : complete u = .next t) (hrec : u.faultRecord = s.faultRecord) :
    ∃ e, ShowsRecorded s e t := by
  obtain ⟨r, t', ht', hanswer⟩ := complete_total u
  obtain rfl := Host.Outcome.next.inj (ht'.symm.trans h)
  exact ⟨r.error, hrec ▸ hanswer.faultRecord, err_of_answers hanswer, status_of_answers hanswer⟩

/-- A step holds everything or shows what it recorded: STATUS is clear in flight and after an acceptance, and only a
completion records (60_exceptions.md R134). -/
theorem stepAt_showsRecorded {lat : Nat} {s t : State} (h : s.Inv lat) (hrst : s.ports.rst = false)
    (hstep : stepAt lat s = .next t) : t = s.popPorts ∨ ∃ e, ShowsRecorded s e t := by
  have reaches {u : State} (hu : stepAt lat s = .next u) : u = t := Host.Outcome.next.inj (hu.symm.trans hstep)
  rcases stepAt_cases lat s with ⟨hr, -⟩ | ⟨k, hbusy, -, hs⟩ | ⟨-, hs⟩ | ⟨k, -, -, hs⟩ | ⟨-, -, hs⟩ | ⟨-, hs⟩
  · -- reset
    exact absurd (hrst.symm.trans hr) Bool.false_ne_true
  · -- waiting
    obtain rfl := reaches hs
    exact .inr ⟨none, showsRecorded_of_clear (h.busyClear hbusy) rfl⟩
  · -- completion
    exact .inr (complete_showsRecorded (hs.symm.trans hstep) rfl)
  · -- acceptance
    obtain rfl := reaches hs
    exact .inr ⟨none, showsRecorded_of_clear rfl rfl⟩
  · -- acceptance and completion at once
    exact .inr (complete_showsRecorded (hs.symm.trans hstep) rfl)
  · -- nothing presented
    exact .inl (reaches hs).symm

/-- Settles O16: a reset and a cycle that holds record nothing, every other step records what it shows. -/
theorem faultRecordKeepsEveryRejection : Obligations.FaultRecordKeepsEveryRejection := by
  intro lat s t hinv hstep
  rcases hrst : s.ports.rst with _ | _
  · rcases stepAt_showsRecorded hinv hrst hstep with rfl | ⟨e, hrec, herr, hstatus⟩
    · exact ⟨[], (List.append_nil _).symm, Nat.zero_le _, fun _ he => absurd he List.not_mem_nil, fun _ => .inr rfl,
        fun _ => rfl⟩
    · refine ⟨e.toList, hrec, Option.length_toList_le, fun c hc => ?_, fun hshown => .inl ?_,
        (absurd · Bool.false_ne_true)⟩
      · have hmem : c ∈ e := Option.mem_toList.mp hc
        exact ⟨herr.trans (Option.isSome_of_mem hmem), hstatus c hmem⟩
      · rw [Ne, Option.toList_eq_nil_iff, ← Option.not_isSome_iff_eq_none, not_not]
        exact herr.symm.trans hshown
  · obtain rfl := Host.Outcome.next.inj ((stepAt_reset hrst).symm.trans hstep)
    refine ⟨[], (List.append_nil _).symm, Nat.zero_le _, fun _ he => absurd he List.not_mem_nil, fun herr => ?_,
      fun _ => rfl⟩
    exact absurd ((err_of_clear (resetCycle_status _)).symm.trans herr) Bool.false_ne_true

end Sys2Proof.Machine
end

section
/-! The kinds of a step, and runs of steps (70_reset_and_hazards.md R144 to R149, 60_exceptions.md R125, R133;
statements O22, O23, O24, O26, O27, O29, O30). -/

namespace Sys2Proof

theorem decode_of_decodeTableWord {nbits w : Nat} {i : Instr} (h : decodeTableWord nbits w = some i) :
    decode (.ofWord (w % 2 ^ nbits)) = .ok i := by
  rw [decodeTableWord] at h
  cases hd : decode (.ofWord (w % 2 ^ nbits)) with
  | error e => rw [hd] at h; exact nomatch h
  | ok j => rw [hd] at h; exact congrArg Except.ok (Option.some.inj h)

namespace Machine

/-- A due unit runs what PEND decodes to (R145). -/
theorem stepAt_due_of_ok {lat : Nat} {s : State} {i : Instr} (hdue : s.Due) (h : decode s.pend = .ok i) :
    stepAt lat s = exec i s.popPorts :=
  (stepAt_due hdue).trans (complete_of_ok h)

/-- Settles O22: both clauses are a completion whose PEND decodes. -/
theorem stepRunsDecodedInstruction : Obligations.StepRunsDecodedInstruction :=
  ⟨fun _ _ _ => stepAt_due_of_ok,
    fun _ _ hrst hidle hvalid h => (stepAt_acceptNow hrst hidle hvalid).trans (complete_of_ok h), fun _ => rfl⟩

/-- Settles O23: a placed word is in PEND and due. -/
theorem placedTableWordRunsNext : Obligations.PlacedTableWordRunsNext := fun s _ _ _ h =>
  stepAt_due_of_ok (withPending_due s _) (decode_of_decodeTableWord h)

/-- Settles O24, one equation of the step for each clause. -/
theorem acceptanceLatchesTheCommand : Obligations.AcceptanceLatchesTheCommand := by
  refine ⟨fun k s hrst hidle hvalid => ?_, fun _ _ => stepAt_idle, fun _ _ _ => stepAt_wait, fun lat s hdue => ?_⟩
  · refine ⟨(reqReady_iff s).mpr ⟨hrst, hidle⟩, _, stepAt_accept hrst hidle hvalid, rfl, rfl,
      statusPort_of_status (accept_status _ _ _) rfl, hostResponse_of_clear (accept_status _ _ _), rfl, ?_, rfl, rfl,
      rfl⟩
    rw [State.reqReady, accept_busy, Bool.not_true, Bool.and_false]
  · obtain ⟨t, ht, hanswer⟩ := stepAt_due_answers lat hdue
    exact ⟨t, ht, hanswer.busy⟩

/-- Settles O29: a completion always answers, and every other kind of cycle is a next state outright. -/
theorem everyCycleContinues : Obligations.EveryCycleContinues := by
  intro lat s
  have completes {u : State} (hu : stepAt lat s = complete u) : ∃ t, stepAt lat s = .next t := by
    obtain ⟨_, t, ht, -⟩ := complete_total u
    exact ⟨t, hu.trans ht⟩
  rcases stepAt_cases lat s with ⟨-, hs⟩ | ⟨k, -, -, hs⟩ | ⟨-, hs⟩ | ⟨k, -, -, hs⟩ | ⟨-, -, hs⟩ | ⟨-, hs⟩
  · exact ⟨_, hs⟩
  · exact ⟨_, hs⟩
  · exact completes hs
  · exact ⟨_, hs⟩
  · exact completes hs
  · exact ⟨_, hs⟩

/-- Settles O30, by induction on the cycles in which nothing is presented. -/
theorem idleUnitHoldsItsResponse : Obligations.IdleUnitHoldsItsResponse := by
  intro lat s ps rest hidle hin hquiet
  induction ps generalizing s with
  | nil =>
    obtain rfl : s.inputs = rest := hin
    rfl
  | cons p ps ih =>
    obtain ⟨hp, hps⟩ := List.forall_mem_cons.mp hquiet
    have hports : s.ports = p := ports_of_inputs hin
    have hstep : stepAt lat s = .next s.popPorts := stepAt_idle (hports ▸ hp.1) hidle (hports ▸ hp.2)
    rw [List.length_cons, run_succ hstep, ih s.popPorts hidle (congrArg List.tail hin) hps]
    rfl

/-- REQ_READY is read off RST and BUSY (10_state.md R28). -/
theorem reqReady_congr {s t : State} (hin : s.inputs = t.inputs) (hbusy : s.busy = t.busy) :
    s.reqReady = t.reqReady := by
  rw [State.reqReady, State.ports, hin, hbusy, State.reqReady, State.ports]

/-- Settles O27: both units answer with the response of the one PEND, and every port is read off that answer. -/
theorem portsInFlightLeaveNoTrace : Obligations.PortsInFlightLeaveNoTrace := by
  intro lat d s ps qs rest hbusy hps hqs hpsQuiet hqsQuiet
  obtain ⟨t, ht, ha⟩ := run_in_flight_answers (lat := lat) (s := { s with inputs := ps ++ rest }) hbusy rfl hps hpsQuiet
  obtain ⟨u, hu, hb⟩ :=
    run_in_flight_answers (lat := lat) (s := { s with inputs := qs ++ rest, draws := d }) hbusy rfl hqs hqsQuiet
  refine ⟨t, u, ht, hu, ha.res.trans hb.res.symm, ha.status.trans hb.status.symm, ha.busy, hb.busy,
    ha.resPort.trans hb.resPort.symm, ha.statusPort.trans hb.statusPort.symm, ?_,
    (hostResponse_of_answers ha).trans (hostResponse_of_answers hb).symm, ?_,
    ha.faultRecord.trans hb.faultRecord.symm, ha.inputs, hb.inputs, ha.countdown.trans hb.countdown.symm⟩
  · exact reqReady_congr (ha.inputs.trans hb.inputs.symm) (ha.busy.trans hb.busy.symm)
  · rw [hostResponse_of_answers ha]
    exact Option.some_ne_none _

/-- Commands presented one after the other to an idle unit: each is answered before the next is presented. The host ends
with the last one's response, or with what it could take before when there is none. -/
theorem run_commands_answered {lat : Nat} (cs : List (Command × List PortSample)) {rest : List PortSample} {s : State}
    (hidle : s.busy = false) (hin : s.inputs = cs.flatMap (fun p => present p.1 p.2) ++ rest)
    (hcs : ∀ p ∈ cs, p.2.length = lat ∧ noReset p.2) :
    ∃ t, (machineAt lat).run (cs.length * (lat + 1)) s = .next t ∧ t.busy = false ∧ t.inputs = rest ∧
      t.faultRecord = s.faultRecord ++ cs.filterMap (fun p => p.1.response.error) ∧
      t.hostResponse =
        cs.getLast?.elim s.hostResponse fun p => some (p.1.response.res, p.1.response.status) := by
  induction cs generalizing s with
  | nil => exact ⟨s, by rw [List.length_nil, Nat.zero_mul, run_zero], hidle, hin, (List.append_nil _).symm, rfl⟩
  | cons p cs ih =>
    obtain ⟨⟨hlen, hquiet⟩, hrest⟩ := List.forall_mem_cons.mp hcs
    rw [List.flatMap_cons, List.append_assoc] at hin
    obtain ⟨u, hu, hfirst⟩ := run_present_answers hidle hin hlen hquiet
    obtain ⟨t, ht, hbusy, hinputs, hrec, hhost⟩ := ih hfirst.busy hfirst.inputs hrest
    refine ⟨t, ?_, hbusy, hinputs, ?_, ?_⟩
    · rw [List.length_cons, Nat.succ_mul, Nat.add_comm, run_add _ hu, ht]
    · rw [hrec, hfirst.faultRecord, List.append_assoc]
      congr 1
      cases he : p.1.response.error with
      | none => simp [he]
      | some e => simp [he]
    · rw [hhost, hostResponse_of_answers hfirst, List.getLast?_cons]
      cases cs.getLast? <;> rfl

/-- Settles O26, by induction on the commands. The run is safe exactly when nothing was recorded before it and
nothing in it. -/
theorem commandsAnsweredInOrder : Obligations.CommandsAnsweredInOrder := by
  intro lat cs rest s hidle hin hcs
  obtain ⟨t, ht, hbusy, hinputs, hrec, hhost⟩ := run_commands_answered cs hidle hin hcs
  refine ⟨t, ht, hbusy, hinputs, hrec, ?_, fun p hlast => ?_⟩
  · unfold State.noErrorRecorded
    rw [hrec, List.append_eq_nil_iff, List.filterMap_eq_nil_iff]
  · rw [hhost, hlast, Option.elim_some]

end Machine

end Sys2Proof
end
